-- ==== Sys2Proof/Word.lean ====
section
/-! DEFINITION. Words and their plainest arithmetic (00_scope.md R8: every value is an unsigned integer).

RELOAD and CNT have one fixed width, 24 bits, so they are bit vectors. Every other register's width is a parameter
of the configuration (00_scope.md R5), so its value is a natural number below 2 to that width. -/

namespace Sys2Proof

/-- The 24-bit timer word of RELOAD and CNT (10_state.md R17, R18). -/
abbrev TimerWord := BitVec 24

/-- One byte of a table image (30_encoding.md R72). -/
abbrev Byte := BitVec 8

/-- A value of `w` bits, all ones. -/
def ones (w : Nat) : Nat := 2 ^ w - 1

/-- `trunc_w(v)` of 00_scope.md R8: `v mod 2^w`. -/
def trunc (w v : Nat) : Nat := v % 2 ^ w

/-- `~v` at `w` bits (00_scope.md R8: the complement is taken at the register's width). -/
def notAt (w v : Nat) : Nat := ones w ^^^ trunc w v

end Sys2Proof
end

