-- ==== Sys2Proof/Config.lean ====
section
/-! DEFINITION. The implementation parameters (00_scope.md R5), the table ROM among them, and the free values.

The configuration is fixed for a run: no operation of the block writes it (10_state.md R12, R23). -/

namespace Sys2Proof

/-- The table ROM (20_memory.md R40): row words by state identifier. Canonical form: strictly rising identifiers
(`Machine.Memory.wf`). A row that is not listed has no value: it was never configured (log 2). -/
abbrev Memory := List (Nat × Nat)

/-- Every parameter of the block (00_scope.md R5). -/
structure Config where
  /-- `K`, number of binary sensors. -/
  k : Nat
  /-- `NSTATES`, number of states (table rows). -/
  nstates : Nat
  /-- `PW`, width of the primary output field. -/
  pw : Nat
  /-- `SPORT_W`, width of the shared port. -/
  sportW : Nat
  /-- `SMASK`, the bits of the shared port the engine owns. -/
  smask : Nat
  /-- `SENS_W`, width of the value `read_inputs()` returns. -/
  sensW : Nat
  /-- `DWELL_W`, width of the dwell field and of UCNT. -/
  dwellW : Nat
  /-- `UNIT_TICKS`, ticks in one calibrated unit. -/
  unitTicks : Nat
  /-- `CLK_HZ`, frequency of the hardware clock. -/
  clkHz : Nat
  /-- `INIT`, the designated initial state. -/
  init : Nat
  /-- `TABLE`, the state table as the ROM holds it. -/
  rom : Memory
  /-- `TICKS_MARGIN` (93_implementation_defined.md U3), default 0 (log 18). -/
  ticksMargin : Nat := 0
  /-- `ADDR_SENS` (20_memory.md R50): the platform's address, used by no rule (log 24). -/
  addrSens : Option Nat := none
  /-- `ADDR_POUT` (20_memory.md R50). -/
  addrPout : Option Nat := none
  /-- `ADDR_SPORT` (20_memory.md R50). -/
  addrSport : Option Nat := none
  /-- `ADDR_TIMER` (20_memory.md R50). -/
  addrTimer : Option Nat := none
deriving DecidableEq, Repr

namespace Config

/-- `NCODES = 2^K` (00_scope.md R5). -/
def ncodes (c : Config) : Nat := 2 ^ c.k

/-- `SW = max(1, ceil(log2 NSTATES))` (00_scope.md R5). -/
def sw (c : Config) : Nat := max 1 (if c.nstates ≤ 1 then 0 else Nat.log2 (c.nstates - 1) + 1)

/-- `RELOAD_W = 24` (00_scope.md R5). -/
def reloadW : Nat := 24

/-- `UNIT_SECONDS = UNIT_TICKS / CLK_HZ` (00_scope.md R5, R6). -/
def unitSeconds (c : Config) : ℚ := (c.unitTicks : ℚ) / c.clkHz

/-- Seconds that `t` ticks last (41_timing_ops.md R112). -/
def tickSeconds (c : Config) (t : Nat) : ℚ := (t : ℚ) / c.clkHz

/-- The reference configuration (00_scope.md R5), with no table: TABLE is OPEN and no row of the reference table is in
the source (log 2). INIT = 0, SMASK = 0x0A and SENS_W = 8 are OPEN parameters. DESIGN CHOICE, unsafe (logs 3, 4). -/
def reference : Config where
  k := 3
  nstates := 9
  pw := 6
  sportW := 8
  smask := 0x0A
  sensW := 8
  dwellW := 16
  unitTicks := 800000
  clkHz := 80000000
  init := 0
  rom := []

/-- FREE VALUE: what the sensor boundary carries at a clock edge the environment's script does not list
(10_state.md R22: chosen by the environment with no constraint; log 6). -/
opaque freeSens : Nat → Nat

/-- FREE VALUE: `UCNT - 1` at `UCNT = 0`, which 41_timing_ops.md R109 leaves undefined (log 9), and what UCNT holds of a
wait it is too narrow for (log 10). -/
opaque freeUnits : Nat → Nat

end Config

end Sys2Proof
end

