-- ==== Sys2Proof/Syntax.lean ====
section
/-! DEFINITION. The operations of the block (30_encoding.md R67, spec/opcode_table.json) and their operands. -/

namespace Sys2Proof

/-- One row of the state table (10_state.md R12). -/
structure Row where
  /-- primary output value -/
  po : Nat
  /-- secondary output value, in shared-port coordinates -/
  so : Nat
  /-- duration in calibrated units -/
  dwell : Nat
  /-- the next state for each input code, code 0 first -/
  next : List Nat
deriving DecidableEq, Repr

/-- The engine's four phases, the values of PH (30_encoding.md R64). -/
inductive Phase where
  | out
  | dwell
  | sample
  | next
deriving DecidableEq, Repr

/-- The two ports of the actuator output boundary (20_memory.md R41). -/
inductive Port where
  | pout
  | sport
deriving DecidableEq, Repr

/-- The operations, one constructor per row of spec/opcode_table.json. -/
inductive Instr where
  /-- STATE: a row word (R60). -/
  | state (r : Row)
  /-- OUT (R80). -/
  | out
  /-- DWELL (R81). -/
  | dwell
  /-- SAMPLE (R82). -/
  | sample
  /-- NEXT (R83). -/
  | next
  /-- TMR_START(n) (R100). -/
  | tmrStart (n : Nat)
  /-- TMR_TICK (R101). -/
  | tmrTick
  /-- step(s, c) (R84). -/
  | step (s c : Nat)
  /-- outputs_for(s) (R85). -/
  | outputsFor (s : Nat)
  /-- run() (R86). -/
  | run
  /-- wait_ticks(n) (R103). -/
  | waitTicks (n : Nat)
  /-- wait_units(n) (R106). -/
  | waitUnits (n : Nat)
  /-- read_inputs() (R45). -/
  | readInputs
  /-- write_outputs(port, bits, mask) (R47). -/
  | writeOutputs (port : Port) (bits mask : Nat)
deriving DecidableEq, Repr

/-- The operation a phase selects (30_encoding.md R64). -/
def Instr.ofPhase : Phase → Instr
  | .out => .out
  | .dwell => .dwell
  | .sample => .sample
  | .next => .next

/-- The formats a word is decoded from (30_encoding.md section 1). The PSEUDO operations have none. -/
inductive Format where
  | row
  | phase
  | tcmd
deriving DecidableEq, Repr

end Sys2Proof
end

