-- ==== Sys2Proof/WellFormed.lean ====
section
/-! DEFINITION. Well-formedness of rows (10_state.md R13) and of operations (the operand domains of their rules). -/

namespace Sys2Proof

/-- The conditions whose failure TableInvalid records (60_exceptions.md R122): WF1 to WF5 of 10_state.md R13, padding
of a row word (30_encoding.md R68), a CUR that names no row (`identifier`: R68, 93_implementation_defined.md U1; log 20), and the
constraint column of 00_scope.md R5 (`param`, DEDUCED: log 16). -/
inductive Condition where
  | param
  | wf1
  | wf2
  | wf3
  | wf4
  | wf5
  | padding
  | identifier
deriving DecidableEq, Repr

/-- The first of WF2, WF4, WF1 that a row fails (10_state.md R13); `none` when it meets all three. -/
def Row.failure (c : Config) (r : Row) : Option Condition :=
  if r.next.length ≠ c.ncodes then some .wf2
  else if ¬ (r.po < 2 ^ c.pw ∧ r.so < 2 ^ c.sportW ∧ r.dwell < 2 ^ c.dwellW) then some .wf4
  else if ¬ (∀ t ∈ r.next, t < c.nstates) then some .wf1
  else none

/-- A row that meets WF1, WF2 and WF4. -/
abbrev Row.WF (c : Config) (r : Row) : Prop := r.failure c = none

/-- The legal operands of TMR_START (41_timing_ops.md R100). -/
abbrev TicksInRange (n : Nat) : Prop := 1 ≤ n ∧ n ≤ 2 ^ 24

/-- The legal operands of wait_ticks (41_timing_ops.md R103), less the band that TICKS_MARGIN refuses (U3). -/
abbrev WaitTicksLegal (c : Config) (n : Nat) : Prop := 1 ≤ n ∧ n + c.ticksMargin ≤ 2 ^ 24

/-- The width of a port (10_state.md R10). -/
def Port.width (c : Config) : Port → Nat
  | .pout => c.pw
  | .sport => c.sportW

/-- An operation whose operands lie in the domain its rule gives. -/
def Instr.wf (c : Config) : Instr → Bool
  | .state r => r.failure c == none
  | .out => true
  | .dwell => true
  | .sample => true
  | .next => true
  | .tmrStart n => decide (TicksInRange n)
  | .tmrTick => true
  | .step s code => decide (s < c.nstates ∧ code < c.ncodes)
  | .outputsFor s => decide (s < c.nstates)
  | .run => true
  | .waitTicks n => decide (WaitTicksLegal c n)
  | .waitUnits n => decide (n < 2 ^ c.dwellW)
  | .readInputs => true
  | .writeOutputs port bits mask => decide (bits < 2 ^ port.width c ∧ mask < 2 ^ port.width c)

end Sys2Proof
end

