-- ==== Sys2Proof/Machine/State.lean ====
section
/-! DEFINITION. The state of the machine as plain data, its faults and refusals, and its reset. -/

namespace Sys2Proof.Machine

/-- The model-level faults (60_exceptions.md R122). The hardware raises none of them (R120): each stands for a
precondition that a caller or a configuration violated, and a faulted run is void (R127). -/
inductive Fault where
  /-- Number 1. Raised by the check of the configuration, which every operation makes, by an engine operation at a CUR that
  names no row (log 20), and by STATE with an ill-formed row; records the first failing condition and the row (the value at fault
  for `param`, `wf3`, `wf5` and `identifier`). Safe: the run stops. -/
  | tableInvalid (cond : Condition) (row : Nat)
  /-- Number 2. Raised by `step(s, c)` with `c >= 2^K`, and by NEXT in a state no run reaches. Safe: the run stops. -/
  | inputCodeRange (s c : Nat)
  /-- Number 3. Raised by `step` and `outputs_for` with `s >= NSTATES`. Safe: the run stops. -/
  | stateRange (s : Nat)
  /-- Number 4. Raised by `wait_ticks` and TMR_START with `n` outside `[1, 2^24]`. Safe: the run stops. -/
  | ticksRange (n : Nat)
deriving DecidableEq, Repr

/-- The fault numbers of 60_exceptions.md R122. -/
def Fault.number : Fault → Nat
  | .tableInvalid _ _ => 1
  | .inputCodeRange _ _ => 2
  | .stateRange _ => 3
  | .ticksRange _ => 4

/-- Why the model gives no step. -/
inductive Refusal where
  /-- Raised by exec for an operation that has no meaning yet. Safe: nothing can be proved of it. -/
  | notModelled (mnemonic : String)
deriving DecidableEq, Repr

/-- The events of the history (20_memory.md R52). -/
inductive Event where
  /-- `OutWrite(t, po, so_masked)` -/
  | outWrite (t po soMasked : Nat)
  /-- `Sample(t, raw, code)` -/
  | sample (t raw code : Nat)
  /-- `Transition(t, from, to)` -/
  | transition (t src dst : Nat)
deriving DecidableEq, Repr

/-- The value a pure function or a boundary read returned to its caller (bookkeeping, log 11). -/
inductive Ret where
  | none
  /-- `step(s, c)` returned a state identifier. -/
  | ident (s : Nat)
  /-- `outputs_for(s)` returned `(po, so)`. -/
  | outputs (po so : Nat)
  /-- `read_inputs()` returned the boundary's value. -/
  | bits (v : Nat)
deriving DecidableEq, Repr

/-- The environment's script: what it does at clock edge 1, 2, ... (20_memory.md R57: a simulated boundary). -/
structure Env where
  /-- Values of SENS at listed edges (20_memory.md R45). -/
  sens : List (Nat × Nat)
  /-- The value of SENS at every other edge; `none`: a free value (10_state.md R22; log 6). -/
  sensRest : Option Nat
  /-- The edges at which `RST = 1` (70_reset_and_hazards.md R140; log 7). -/
  rst : List Nat
deriving DecidableEq, Repr

/-- The environment of which nothing is scripted: free sensors, no reset. -/
def Env.free : Env := { sens := [], sensRest := .none, rst := [] }

/-- The whole state: the configuration, the eight registers of 10_state.md R10, the environment's script, and the
model's bookkeeping. -/
structure State where
  /-- The parameters (00_scope.md R5), constant for a run (log 1). -/
  cfg : Config
  /-- CUR (10_state.md R11), SW bits. -/
  cur : Nat
  /-- PH (10_state.md R14), one of the four codes of 30_encoding.md R64. -/
  ph : Phase
  /-- IN (10_state.md R15), K bits. -/
  inp : Nat
  /-- UCNT (10_state.md R16), DWELL_W bits. -/
  ucnt : Nat
  /-- RELOAD (10_state.md R17). -/
  reload : TimerWord
  /-- CNT (10_state.md R18). -/
  cnt : TimerWord
  /-- POUT (10_state.md R20), PW bits. -/
  pout : Nat
  /-- SPORT (10_state.md R21), SPORT_W bits. -/
  sport : Nat
  /-- SENS and RST as the environment drives them. -/
  env : Env
  /-- The number of the last tick since reset release (70_reset_and_hazards.md R141). -/
  tick : Nat
  /-- The number of clock edges so far, the environment's time (log 8). -/
  edges : Nat
  /-- The event history, oldest first; no operation reads it (20_memory.md R52). -/
  history : List Event
  /-- The last returned value. -/
  ret : Ret
  /-- How many free values have been drawn (log 9). -/
  draws : Nat
deriving DecidableEq, Repr

/-- The state before tick 1 for a configuration, the port values that bring-up left, and an environment
(10_state.md R25, 70_reset_and_hazards.md R141, R145). -/
def State.launch (c : Config) (pout sport : Nat) (env : Env) : State where
  cfg := c
  cur := c.init
  ph := .out
  inp := 0
  ucnt := 0
  reload := 0
  cnt := 0
  pout := pout
  sport := sport
  env := env
  tick := 0
  edges := 0
  history := []
  ret := .none
  draws := 0

/-- The machine right after reset (10_state.md R25): the reference configuration with no table loaded. The spec gives
POUT and SPORT no reset value; 0 is the model's. DESIGN CHOICE, unsafe (log 5). -/
def State.reset : State := State.launch Config.reference 0 0 Env.free

end Sys2Proof.Machine
end

