-- ==== Sys2Proof/Machine/Flags.lean ====
section
/-! DEFINITION. The one condition of the block, `expire`, and the value CNT counts to. No flag is stored
(10_state.md R19). -/

namespace Sys2Proof.Machine

/-- `nxt`: reload when zero, else decrement (41_timing_ops.md R101). -/
def nextCount (s : State) : TimerWord := if s.cnt = 0 then s.reload else s.cnt - 1

/-- `expire` at a tick (41_timing_ops.md R102): a wire, false when TMR_START fires (`tstart`, 60_exceptions.md
R125 (c)), else true exactly when `nxt = 0`. -/
def expire (tstart : Bool) (s : State) : Bool := !tstart && nextCount s == 0

end Sys2Proof.Machine
end

