-- ==== Sys2Proof/Decode.lean ====
section
/-! DEFINITION. Decoding and encoding: rows (30_encoding.md R60, R61), phases (R64), timer commands (R65), byte images
(R42, R72), and the host's reading of an opcode-table word. -/

namespace Sys2Proof

/-- `c4(w) = 4 * ceil(w / 4)`: the container of a `w`-bit field (30_encoding.md R60). -/
def c4 (w : Nat) : Nat := 4 * ((w + 3) / 4)

/-- Bits `[lo + width - 1 : lo]` of `v` (00_scope.md R8). -/
def bitsAt (v lo width : Nat) : Nat := (v >>> lo) % 2 ^ width

namespace Config

/-- Low bit of the `so` container: `A`. -/
def soLo (c : Config) : Nat := c4 c.pw

/-- Low bit of the `dwell` container: `A + B`. -/
def dwellLo (c : Config) : Nat := c4 c.pw + c4 c.sportW

/-- Low bit of the `next[0]` container: `A + B + C`. -/
def nextLo (c : Config) : Nat := c4 c.pw + c4 c.sportW + c4 c.dwellW

/-- Width of a `next` container: `D`. -/
def nextW (c : Config) : Nat := c4 c.sw

/-- `ROW_W = A + B + C + 2^K * D` (30_encoding.md R60). -/
def rowW (c : Config) : Nat := c.nextLo + c.ncodes * c.nextW

end Config

/-- The containers of a row word. -/
inductive RowField where
  | po
  | so
  | dwell
  | next
deriving DecidableEq, Repr

/-- Why a word is refused (30_encoding.md R68). -/
inductive DecodeError where
  /-- more bits than the format has -/
  | tooWide
  /-- a container's padding bits are not all zero -/
  | padding (f : RowField)
  /-- a next entry is not below NSTATES (WF1) -/
  | targetRange
  /-- TMR_TICK with a nonzero reload operand -/
  | operandNotZero
  /-- no format has this many bits -/
  | noFormat
  /-- a byte image that is not a whole number of rows -/
  | imageLength
deriving DecidableEq, Repr

/-- The `next` entries of a row word, code 0 first: container `c` is bits `[A+B+C+(c+1)*D-1 : A+B+C+c*D]` (R60). -/
def nextEntries (c : Config) (w : Nat) : List Nat :=
  (List.range c.ncodes).map fun code => bitsAt w (c.nextLo + code * c.nextW) c.nextW

/-- Decode a row word (30_encoding.md R60, R61): every container is read, its padding must be zero (R68), and every
next entry must name a row (WF1). -/
def decodeRow (c : Config) (w : Nat) : Except DecodeError Row :=
  let po := bitsAt w 0 (c4 c.pw)
  let so := bitsAt w c.soLo (c4 c.sportW)
  let dwell := bitsAt w c.dwellLo (c4 c.dwellW)
  let next := nextEntries c w
  if 2 ^ c.rowW ≤ w then .error .tooWide
  else if 2 ^ c.pw ≤ po then .error (.padding .po)
  else if 2 ^ c.sportW ≤ so then .error (.padding .so)
  else if 2 ^ c.dwellW ≤ dwell then .error (.padding .dwell)
  else if ¬ (∀ t ∈ next, t < 2 ^ c.sw) then .error (.padding .next)
  else if ¬ (∀ t ∈ next, t < c.nstates) then .error .targetRange
  else .ok { po := po, so := so, dwell := dwell, next := next }

/-- Pack values into containers of `d` bits, the first in the lowest. -/
def packNext (d : Nat) : List Nat → Nat
  | [] => 0
  | t :: ts => t + 2 ^ d * packNext d ts

/-- Encode a row (30_encoding.md R60, R61): the containers from bit 0 upward in the order po, so, dwell, next[0], ... -/
def encodeRow (c : Config) (r : Row) : Nat :=
  r.po + 2 ^ c4 c.pw * (r.so + 2 ^ c4 c.sportW * (r.dwell + 2 ^ c4 c.dwellW * packNext c.nextW r.next))

/-- The 2-bit code of a phase (30_encoding.md R64). -/
def Phase.code : Phase → Nat
  | .out => 0
  | .dwell => 1
  | .sample => 2
  | .next => 3

/-- Decode a phase code: all four are used (30_encoding.md R64, R68). -/
def decodePhase (w : Nat) : Except DecodeError Phase :=
  match w with
  | 0 => .ok .out
  | 1 => .ok .dwell
  | 2 => .ok .sample
  | 3 => .ok .next
  | _ => .error .tooWide

/-- Decode a timer command (30_encoding.md R65): bit 0 is TSTART, and the 24 bits above it are the reload operand
`n - 1` of TMR_START. That the operand stands directly above TSTART is the model's. DESIGN CHOICE, safe (log 15). -/
def decodeTcmd (w : Nat) : Except DecodeError Instr :=
  if 2 ^ 25 ≤ w then .error .tooWide
  else if bitsAt w 0 1 = 1 then .ok (.tmrStart (bitsAt w 1 24 + 1))
  else if bitsAt w 1 24 = 0 then .ok .tmrTick
  else .error .operandNotZero

/-- The decoder: total, one word of a format to its operation or a refusal by name. -/
def decode (c : Config) (f : Format) (w : Nat) : Except DecodeError Instr :=
  match f with
  | .row => (decodeRow c w).map Instr.state
  | .phase => (decodePhase w).map Instr.ofPhase
  | .tcmd => decodeTcmd w

/-- The encoder: the format and word of an operation that has one; the PSEUDO operations have none
(30_encoding.md R67, R71). -/
def encode (c : Config) : Instr → Option (Format × Nat)
  | .state r => some (.row, encodeRow c r)
  | .out => some (.phase, Phase.code .out)
  | .dwell => some (.phase, Phase.code .dwell)
  | .sample => some (.phase, Phase.code .sample)
  | .next => some (.phase, Phase.code .next)
  | .tmrStart n => some (.tcmd, 1 + 2 * (n - 1))
  | .tmrTick => some (.tcmd, 0)
  | .step _ _ => none
  | .outputsFor _ => none
  | .run => none
  | .waitTicks _ => none
  | .waitUnits _ => none
  | .readInputs => none
  | .writeOutputs _ _ _ => none

/-- The width of a format's word (30_encoding.md R69). -/
def Format.width (c : Config) : Format → Nat
  | .row => c.rowW
  | .phase => 2
  | .tcmd => 25

/-! ### Byte images (30_encoding.md R72, 20_memory.md R42) -/

/-- Bytes of one row: `ceil(ROW_W / 8)`. -/
def rowBytes (c : Config) : Nat := (c.rowW + 7) / 8

/-- `n` bytes of `w`, least significant first. -/
def bytesOf : Nat → Nat → List Byte
  | 0, _ => []
  | n + 1, w => BitVec.ofNat 8 w :: bytesOf n (w / 256)

/-- The number whose bytes, least significant first, are given. -/
def ofBytes : List Byte → Nat
  | [] => 0
  | b :: bs => b.toNat + 256 * ofBytes bs

/-- The byte image of a table: rows in ascending state identifier, each little-endian. -/
def imageOf (c : Config) (words : List Nat) : List Byte := words.flatMap (bytesOf (rowBytes c))

/-- Split a byte image into `n` row words; refused when its length is not `n` rows or a row's top padding is not zero. R72 says
nothing of an image of another length: that a shorter and a longer one are refused alike is the model's. DESIGN CHOICE, safe (log
27). -/
def wordsOf (c : Config) : Nat → List Byte → Except DecodeError (List Nat)
  | 0, [] => .ok []
  | 0, _ :: _ => .error .imageLength
  | n + 1, bs =>
    if (bs.take (rowBytes c)).length ≠ rowBytes c then .error .imageLength
    else if 2 ^ c.rowW ≤ ofBytes (bs.take (rowBytes c)) then .error .tooWide
    else (wordsOf c n (bs.drop (rowBytes c))).map (ofBytes (bs.take (rowBytes c)) :: ·)

/-! ### The host's reading of an opcode-table word -/

/-- The format of an opcode-table word of `nbits` bits. A PHASE row (2 bits) and a TCMD row (1 bit) both fill one
byte, and the machine tells them apart by the place they stand in, PH or TSTART, not by their bits; the byte that step
fetches is PH, so one byte is a PHASE word (log 15). -/
def formatOfBits (nbits : Nat) : Option Format :=
  match nbits with
  | 64 => some .row
  | 8 => some .phase
  | 2 => some .phase
  | 1 => some .tcmd
  | 25 => some .tcmd
  | 32 => some .tcmd
  | _ => none

/-- The operation the decoder reads, at the reference configuration, from an opcode-table word. -/
def decodeTableWord (nbits w : Nat) : Option Instr :=
  match formatOfBits nbits with
  | some f => (decode Config.reference f w).toOption
  | none => none

end Sys2Proof
end

