-- ==== Sys2Proof/Machine/Operands.lean ====
section
/-! DEFINITION. Every operand of the block and how it is formed (30_encoding.md R66). -/

namespace Sys2Proof.Machine

/-- A ROM access: the word of a listed row (20_memory.md R40). -/
def Memory.read : Memory → Nat → Option Nat
  | [], _ => none
  | (a, w) :: m, s => if a = s then some w else Memory.read m s

/-- The canonical form of a ROM: strictly rising row numbers. -/
def Memory.wf : Memory → Bool
  | [] => true
  | [_] => true
  | (a, _) :: (b, w) :: m => decide (a < b) && Memory.wf ((b, w) :: m)

/-- The condition a refused row word fails (60_exceptions.md R122). -/
def rowCondition : DecodeError → Condition
  | .tooWide => .padding
  | .padding _ => .padding
  | .targetRange => .wf1
  | .operandNotZero => .padding
  | .noFormat => .padding
  | .imageLength => .wf2

/-- `T[s]` (10_state.md R12): the row of state identifier `s`. An identifier that names no row is StateRange; a row
that is missing or ill-formed is TableInvalid (60_exceptions.md R122). -/
def rowAt (c : Config) (s : Nat) : Except Fault Row :=
  if s < c.nstates then
    match Memory.read c.rom s with
    | none => .error (.tableInvalid .wf2 s)
    | some w =>
      match decodeRow c w with
      | .ok r => .ok r
      | .error e => .error (.tableInvalid (rowCondition e) s)
  else .error (.stateRange s)

/-- The entry of row `r` (of state `s`) for an input code (40_engine_ops.md R83, R84). -/
def targetOf (c : Config) (s : Nat) (r : Row) (code : Nat) : Except Fault Nat :=
  if code < c.ncodes then
    match r.next[code]? with
    | some t => .ok t
    | none => .error (.tableInvalid .wf2 s)
  else .error (.inputCodeRange s code)

/-- `step(s, c)` on raw integers (40_engine_ops.md R84). The code is checked before the row
is read, so InputCodeRange is raised where the state or its row fails too. DESIGN CHOICE, safe (log 17). -/
def stepLookup (c : Config) (s code : Nat) : Except Fault Nat :=
  if code < c.ncodes then
    match rowAt c s with
    | .ok r => targetOf c s r code
    | .error f => .error f
  else .error (.inputCodeRange s code)

/-- `outputs_for(s)` on a raw integer (40_engine_ops.md R85). -/
def outputsLookup (c : Config) (s : Nat) : Except Fault (Nat × Nat) :=
  (rowAt c s).map fun r => (r.po, r.so)

/-- The value a script gives an edge. -/
def scripted : List (Nat × Nat) → Nat → Option Nat
  | [], _ => none
  | (a, v) :: l, e => if a = e then some v else scripted l e

/-- `SENS(t)`, SENS_W bits, at clock edge `e` (10_state.md R22, 20_memory.md R45). -/
def sensAt (c : Config) (env : Env) (e : Nat) : Nat :=
  trunc c.sensW
    (match scripted env.sens e with
    | some v => v
    | none =>
      match env.sensRest with
      | some v => v
      | none => Config.freeSens e)

/-- `read_inputs()` at the coming edge (20_memory.md R45). -/
def readSens (s : State) : Nat := sensAt s.cfg s.env (s.edges + 1)

/-- The input code: the low K bits (20_memory.md R46, 30_encoding.md R63). -/
def codeOf (c : Config) (v : Nat) : Nat := trunc c.k v

/-- `RST` at clock edge `e` (70_reset_and_hazards.md R140). -/
def rstAt (env : Env) (e : Nat) : Bool := decide (e ∈ env.rst)

/-- `RST` at the coming edge. -/
def rstNow (s : State) : Bool := rstAt s.env (s.edges + 1)

/-- `RST` is 0 at each of the next `n` edges. -/
def QuietFor (s : State) (n : Nat) : Prop := ∀ i, i < n → rstAt s.env (s.edges + 1 + i) = false

/-- The value a port takes from `write_outputs(port, bits, mask)` at width `w` (20_memory.md R47): mask and bits above
the port's width address no bit of it (log 19). -/
def maskedWrite (w old bits mask : Nat) : Nat :=
  (old &&& notAt w mask) ||| (bits &&& trunc w mask)

end Sys2Proof.Machine
end

