-- ==== Sys2Proof/Machine/Ops.lean ====
section
/-! DEFINITION. The named operations the meanings share: clock edges, reset, the timer, the ports, the table ROM. -/

namespace Sys2Proof.Machine

/-! ### Clock edges and reset -/

/-- What a stretch of clock edges came to. -/
inductive Pass where
  /-- it ran to its end -/
  | on (s : State)
  /-- `RST` was 1 at one of its edges: the rest was abandoned (70_reset_and_hazards.md R142; DEDUCED, log 21) -/
  | reset (s : State)
  /-- a precondition was violated -/
  | fault (f : Fault)
deriving DecidableEq, Repr

/-- Go on with the next stretch, unless the first was abandoned or faulted. -/
def Pass.andThen (p : Pass) (k : State → Pass) : Pass :=
  match p with
  | .on s => k s
  | .reset s => .reset s
  | .fault f => .fault f

/-- A stretch as an outcome: an abandoned one ends in the reset state. -/
def Pass.outcome : Pass → Host.Outcome State Fault Refusal
  | .on s => .next s
  | .reset s => .next s
  | .fault f => .fault f

/-- An edge at which `RST = 1` (70_reset_and_hazards.md R140): the engine-owned registers take their reset values, no
phase and no timer operation fires, the ports are not written. The tick number starts again (R141), the environment's
time goes on (log 8). THE ONE shared entry of the reset state; the block has no exception to take (60_exceptions.md
R120, R126). -/
def State.enterReset (s : State) : State :=
  { s with
    cur := s.cfg.init
    ph := .out
    inp := 0
    ucnt := 0
    reload := 0
    cnt := 0
    tick := 0
    edges := s.edges + 1 }

/-- One tick has passed. -/
def State.advance (s : State) : State := { s with tick := s.tick + 1, edges := s.edges + 1 }

/-- One clock edge: reset when `RST = 1`, which has priority over everything (R140), else the operation. -/
def onEdge (op : State → Except Fault State) (s : State) : Pass :=
  if rstNow s then .reset s.enterReset
  else
    match op s with
    | .ok t => .on t.advance
    | .error f => .fault f

/-! ### Single fields -/

/-- PH takes a phase. -/
def State.setPh (p : Phase) (s : State) : State := { s with ph := p }

/-- UCNT takes a count. -/
def State.setUcnt (n : Nat) (s : State) : State := { s with ucnt := n }

/-- One more event of the history (20_memory.md R52). -/
def State.record (e : Event) (s : State) : State := { s with history := s.history ++ [e] }

/-! ### The timer -/

/-- TMR_START (41_timing_ops.md R100). -/
def timerStart (n : Nat) (s : State) : Except Fault State :=
  if TicksInRange n then .ok { s with reload := BitVec.ofNat 24 (n - 1), cnt := 0 }
  else .error (.ticksRange n)

/-- TMR_TICK (41_timing_ops.md R101). -/
def timerTick (s : State) : State := { s with cnt := nextCount s }

/-- UCNT takes a value the spec does not give: a free value of DWELL_W bits (logs 9, 10). -/
def drawUnits (s : State) : State :=
  { s with ucnt := trunc s.cfg.dwellW (Config.freeUnits s.draws), draws := s.draws + 1 }

/-- `UCNT <- UCNT - 1` (40_engine_ops.md R81). At UCNT = 0, which no run reaches, the spec gives no value (41_timing_ops.md
R109): a free value (log 9). -/
def countUnit (s : State) : State :=
  if s.ucnt = 0 then drawUnits s else { s with ucnt := s.ucnt - 1 }

/-- One tick of a wait on the unit counter (40_engine_ops.md R81, 41_timing_ops.md R106): TMR_TICK, and at `expire` one
unit less; `done` is what happens when the last unit is over. -/
def unitTick (done : State → State) (s : State) : State :=
  if expire false s then
    if s.ucnt = 1 then done (State.setUcnt 0 (timerTick s)) else countUnit (timerTick s)
  else timerTick s

/-- TMR_TICK until the first tick with `expire` (41_timing_ops.md R103), for at most `fuel` ticks. -/
def tickUntilExpire : Nat → State → Pass
  | 0, s => .on s
  | fuel + 1, s =>
    (onEdge (fun t => .ok (timerTick t)) s).andThen fun t =>
      if expire false s then .on t else tickUntilExpire fuel t

/-- TMR_TICK until the unit counter is exhausted (41_timing_ops.md R106), for at most `fuel` ticks. -/
def tickUntilUnits : Nat → State → Pass
  | 0, s => .on s
  | fuel + 1, s =>
    if s.ucnt = 0 then .on s
    else (onEdge (fun t => .ok (unitTick id t)) s).andThen (tickUntilUnits fuel)

/-- `n` ticks of TMR_TICK. -/
def tickFor : Nat → State → Pass
  | 0, s => .on s
  | n + 1, s => (onEdge (fun t => .ok (timerTick t)) s).andThen (tickFor n)

/-- The start of a wait of more units than UCNT can hold: TMR_START of one unit as for any wait; what UCNT holds of the
count is a free value (log 10). -/
def startLongWait (s : State) : Except Fault State := timerStart s.cfg.unitTicks (drawUnits s)

/-- The start of a wait of `n` units at this tick (40_engine_ops.md R80, 41_timing_ops.md R106): UCNT takes `n`; TMR_START of one
unit, or, for `n = 0`, no start and the timer free-runs. -/
def startUnits (n : Nat) (s : State) : Except Fault State :=
  if n = 0 then .ok (timerTick (State.setUcnt n s))
  else timerStart s.cfg.unitTicks (State.setUcnt n s)

/-! ### The ports -/

/-- `write_outputs(port, bits, mask)` (20_memory.md R47). -/
def writePort (port : Port) (bits mask : Nat) (s : State) : State :=
  match port with
  | .pout => { s with pout := maskedWrite s.cfg.pw s.pout bits mask }
  | .sport => { s with sport := maskedWrite s.cfg.sportW s.sport bits mask }

/-- Both writes of one OUT, at one edge (20_memory.md R44 (d), R48, R49), recorded as `OutWrite` (R52). -/
def driveOutputs (po so : Nat) (s : State) : State :=
  State.record (.outWrite (s.tick + 1) po (so &&& s.cfg.smask))
    (writePort .sport so s.cfg.smask (writePort .pout po (ones s.cfg.pw) s))

/-- The one sample of an iteration (20_memory.md R45, R46): IN takes the low K bits, recorded as `Sample` (R52). -/
def latchInput (s : State) : State :=
  { s with
    inp := codeOf s.cfg (readSens s)
    history := s.history ++ [.sample (s.tick + 1) (readSens s) (codeOf s.cfg (readSens s))] }

/-- CUR takes the target (40_engine_ops.md R83), recorded as `Transition` (20_memory.md R52). -/
def moveTo (target : Nat) (s : State) : State :=
  { s with
    cur := target
    history := s.history ++ [.transition (s.tick + 1) s.cur target] }

/-! ### The table ROM, from outside the machine (70_reset_and_hazards.md R146) -/

/-- Configure one row of a ROM, keeping the canonical form. -/
def Memory.write : Memory → Nat → Nat → Memory
  | [], s, w => [(s, w)]
  | (a, v) :: m, s, w =>
    if s < a then (s, w) :: (a, v) :: m
    else if s = a then (s, w) :: m
    else (a, v) :: Memory.write m s w

/-- Give every row below `n` that is not listed the word `w`. -/
def Memory.fill : Nat → Nat → Memory → Memory
  | 0, _, m => m
  | n + 1, w, m =>
    match Memory.read m n with
    | some _ => Memory.fill n w m
    | none => Memory.fill n w (Memory.write m n w)

/-- A state whose configuration holds the ROM `m`: a table loaded before the run. -/
def State.withTable (s : State) (m : Memory) : State := { s with cfg := { s.cfg with rom := m } }

end Sys2Proof.Machine
end

