-- ==== Sys2Proof/Machine/Table.lean ====
section
/-! DEFINITION. The check of a configuration (10_state.md R13), the properties of a production table (R28), and the
building of a configuration from rows (70_reset_and_hazards.md R144, R146). -/

namespace Sys2Proof.Machine

/-- `popcount(v)` of the low `w` bits (00_scope.md R8). -/
def popcount (w v : Nat) : Nat := ((List.range w).filter fun i => v.testBit i).length

/-- The constraint column of 00_scope.md R5, less those that WF3 and WF5 repeat. -/
def paramsOk (c : Config) : Bool :=
  decide (1 ≤ c.k) && decide (1 ≤ c.pw) && decide (popcount c.sportW c.smask ≤ c.sportW) && decide (0 < c.smask)
    && decide (c.smask < 2 ^ c.sportW) && decide (c.k ≤ c.sensW) && decide (1 ≤ c.dwellW) && decide (0 < c.clkHz)

/-- The first of the rows `0 .. n-1` that cannot be read: missing, padded or dangling. -/
def rowsFailure (c : Config) : Nat → Option Fault
  | 0 => none
  | n + 1 =>
    match rowsFailure c n with
    | some f => some f
    | none =>
      match rowAt c n with
      | .ok _ => none
      | .error f => some f

/-- The check made when the configuration is built (10_state.md R13, 60_exceptions.md R122): the first failing
condition, or `none`. The order (parameters, WF3, WF5, then the rows ascending) is the model's. DESIGN CHOICE, safe
(log 16). -/
def configFailure (c : Config) : Option Fault :=
  if ¬ paramsOk c then some (.tableInvalid .param 0)
  else if ¬ (1 ≤ c.nstates ∧ c.init < c.nstates) then some (.tableInvalid .wf3 c.init)
  else if ¬ TicksInRange c.unitTicks then some (.tableInvalid .wf5 c.unitTicks)
  else rowsFailure c c.nstates

/-- A configuration that passes the check: it has a run. -/
abbrev Valid (c : Config) : Prop := configFailure c = none

/-- An operation under the check: a configuration that the check refuses gets no value from any operation (60_exceptions.md
R122), as it has no run (10_state.md R13). DEDUCED, safe (log 26). -/
def checked (op : State → Host.Outcome State Fault Refusal) (s : State) : Host.Outcome State Fault Refusal :=
  match configFailure s.cfg with
  | some f => .fault f
  | none => op s

/-! ### Properties of a production table (10_state.md R28) -/

/-- The states reached from `s` by one transition, over every input code. -/
def successors (c : Config) (s : Nat) : List Nat :=
  match rowAt c s with
  | .ok r => r.next
  | .error _ => []

/-- Depth-first search: the states reached from `todo`, beside those already in `seen`, in at most `fuel` visits. -/
def search (c : Config) : Nat → List Nat → List Nat → List Nat
  | 0, _, seen => seen
  | _, [], seen => seen
  | fuel + 1, s :: todo, seen =>
    if s ∈ seen then search c fuel todo seen else search c fuel (successors c s ++ todo) (s :: seen)

/-- The states reachable from INIT over all input codes: each state's NCODES transitions are visited once. -/
def reachSet (c : Config) : List Nat := search c (1 + c.nstates * c.ncodes) [c.init] []

/-- `Reachable(T, INIT)`: no unreachable dead state. Separate from the check (90_conflicts.md C5). -/
def Reachable (c : Config) : Bool := (List.range c.nstates).all fun s => decide (s ∈ reachSet c)

/-- Connectedness: every state has a transition back into the reachable set. -/
def Connected (c : Config) : Bool :=
  (List.range c.nstates).all fun s => (successors c s).any fun t => decide (t ∈ reachSet c)

/-! ### The sampling hazard -/

/-- The longest gap between two consecutive sampling instants: the longest iteration of the table, in ticks
(70_reset_and_hazards.md R150). -/
def longestGap (c : Config) : Nat :=
  ((List.range c.nstates).map fun s =>
    match rowAt c s with
    | .ok r => r.dwell * c.unitTicks
    | .error _ => 0).foldr max 0 + 3

/-! ### Building a configuration -/

/-- The first failing row of a table, with its number. -/
def tableFailure (c : Config) : Nat → List Row → Option Fault
  | _, [] => none
  | s, r :: rs =>
    match r.failure c with
    | some cond => some (.tableInvalid cond s)
    | none => tableFailure c (s + 1) rs

/-- The ROM that holds the given words as rows `s, s+1, ...`. -/
def romFrom : Nat → List Nat → Memory
  | _, [] => []
  | s, w :: ws => (s, w) :: romFrom (s + 1) ws

/-- A configuration that passes the check, or the fault that refuses it. -/
def accept (c : Config) : Except Fault Config :=
  match configFailure c with
  | some f => .error f
  | none => .ok c

/-- Build a configuration from parameters and rows: NSTATES is the number of rows, and an invalid one is refused
(60_exceptions.md R122). A row that fails a condition is reported before the parameters, WF3 and WF5, which `configFailure`
checks once the ROM is built; the spec orders them not. DESIGN CHOICE, safe (log 16). -/
def buildConfig (c : Config) (rows : List Row) : Except Fault Config :=
  let c' := { c with nstates := rows.length }
  match tableFailure c' 0 rows with
  | some f => .error f
  | none => accept { c' with rom := romFrom 0 (rows.map (encodeRow c')) }

/-- Build a configuration from a byte image of its table (30_encoding.md R72), made under the same check. An image that is not
NSTATES rows long fails WF2, nonzero padding above a row is padding; the row recorded is 0. DESIGN CHOICE, safe (log 27). -/
def loadImage (c : Config) (image : List Byte) : Except Fault Config :=
  match wordsOf c c.nstates image with
  | .ok ws => accept { c with rom := romFrom 0 ws }
  | .error e => .error (.tableInvalid (rowCondition e) 0)

end Sys2Proof.Machine
end

