-- ==== Sys2Proof/Machine/Boundary.lean ====
section
/-! DEFINITION. The two boundary capabilities (20_memory.md R45, R47, R57), each made under the check of the configuration
(`checked`). 70_reset_and_hazards.md R159 gives neither a tick count (log 12). -/

namespace Sys2Proof.Machine

/-- read_inputs() (R45): the value at the coming edge goes to the caller; it writes no register, so no edge passes and there
is no other effect (R56). DESIGN CHOICE, unsafe for durations (log 12). -/
def execReadInputs (s : State) : Host.Outcome State Fault Refusal :=
  checked (fun s => .next { s with ret := .bits (readSens s) }) s

/-- write_outputs(port, bits, mask) (R47): the port is written at one clock edge (00_scope.md R8, R44), at which the timer ticks
as at every tick that is no TMR_START (41_timing_ops.md R101), unless RST = 1 (70_reset_and_hazards.md R140: then no port is
written). DEDUCED (log 12). -/
def execWriteOutputs (port : Port) (bits mask : Nat) (s : State) : Host.Outcome State Fault Refusal :=
  checked (fun s => (onEdge (fun t => .ok (writePort port bits mask (timerTick t))) s).outcome) s

end Sys2Proof.Machine
end

