-- ==== Sys2Proof/Machine/Engine.lean ====
section
/-! DEFINITION. The engine: the four phases, the row they execute, the pure functions and the run loop
(40_engine_ops.md). -/

namespace Sys2Proof.Machine

/-! ### One tick of each phase, given the row of CUR -/

/-- OUT (40_engine_ops.md R80). -/
def outTick (r : Row) (s : State) : Except Fault State :=
  match startUnits r.dwell (driveOutputs r.po r.so s) with
  | .ok t => .ok (State.setPh (if r.dwell = 0 then .sample else .dwell) t)
  | .error f => .error f

/-- DWELL (40_engine_ops.md R81): PH leaves for SAMPLE when the last unit is over, and is not written before. -/
def dwellTick (s : State) : State := unitTick (State.setPh .sample) s

/-- SAMPLE (40_engine_ops.md R82); the timer free-runs. -/
def sampleTick (s : State) : State := State.setPh .next (latchInput (timerTick s))

/-- NEXT (40_engine_ops.md R83); the timer free-runs. An IN that is no code, which no run reaches, is
InputCodeRange. -/
def nextTick (r : Row) (s : State) : Except Fault State :=
  match targetOf s.cfg s.cur r s.inp with
  | .ok target => .ok (State.setPh .out (moveTo target (timerTick s)))
  | .error f => .error f

/-- An engine operation, at a CUR that names a row: R68 and U1 give any other value no meaning, so it is TableInvalid
(60_exceptions.md R122: a state identifier >= NSTATES anywhere). It is raised before any fault of the operation itself,
InputCodeRange of NEXT and an ill-formed row of STATE among them; the spec orders them not. DESIGN CHOICE, safe (logs 17, 20). -/
def withCur (op : State → Except Fault State) (s : State) : Except Fault State :=
  if s.cur < s.cfg.nstates then op s else .error (.tableInvalid .identifier s.cur)

/-- An operation on the row of CUR (30_encoding.md R66: the table address is CUR). -/
def withRow (op : Row → State → Except Fault State) : State → Except Fault State :=
  withCur fun s =>
    match rowAt s.cfg s.cur with
    | .ok r => op r s
    | .error f => .error f

/-- The tick of the phase PH selects, given the row (30_encoding.md R64). -/
def phaseTick (r : Row) (s : State) : Except Fault State :=
  match s.ph with
  | .out => outTick r s
  | .dwell => .ok (dwellTick s)
  | .sample => .ok (sampleTick s)
  | .next => nextTick r s

/-- The tick of a row word under execution: the phase PH selects with this row, or TableInvalid where it is ill-formed
(10_state.md R13, 60_exceptions.md R122). -/
def rowTick (r : Row) (s : State) : Except Fault State :=
  match r.failure s.cfg with
  | none => phaseTick r s
  | some cond => .error (.tableInvalid cond s.cur)

/-- What a pure function gives its caller: the result, or its fault; nothing else changes. -/
def answer {α : Type} (ret : α → Ret) (result : Except Fault α) (s : State) : Host.Outcome State Fault Refusal :=
  match result with
  | .ok v => .next { s with ret := ret v }
  | .error f => .fault f

/-! ### Meanings

Each is made under the check of the configuration (`checked`). exec gives each phase its effect whatever PH holds; only step
selects by PH (DESIGN CHOICE, log 23). -/

/-- STATE: a row word under execution (10_state.md R11: CUR holds the state whose row is being executed): one tick of
the phase PH selects, the row's fields its operands. An ill-formed row is refused as TableInvalid (R13, R122). DEDUCED,
log 14. -/
def execState (r : Row) (s : State) : Host.Outcome State Fault Refusal :=
  checked (fun s => (onEdge (withCur (rowTick r)) s).outcome) s

/-- OUT (R80). -/
def execOut (s : State) : Host.Outcome State Fault Refusal :=
  checked (fun s => (onEdge (withRow outTick) s).outcome) s

/-- DWELL (R81). -/
def execDwell (s : State) : Host.Outcome State Fault Refusal :=
  checked (fun s => (onEdge (withCur fun t => .ok (dwellTick t)) s).outcome) s

/-- SAMPLE (R82). -/
def execSample (s : State) : Host.Outcome State Fault Refusal :=
  checked (fun s => (onEdge (withCur fun t => .ok (sampleTick t)) s).outcome) s

/-- NEXT (R83). -/
def execNext (s : State) : Host.Outcome State Fault Refusal :=
  checked (fun s => (onEdge (withRow nextTick) s).outcome) s

/-- step(s, c) (R84): pure; the result goes to the caller, no tick passes. -/
def execStep (st code : Nat) (s : State) : Host.Outcome State Fault Refusal :=
  checked (fun s => answer .ident (stepLookup s.cfg st code) s) s

/-- outputs_for(s) (R85): pure; the result goes to the caller, no tick passes. -/
def execOutputsFor (st : Nat) (s : State) : Host.Outcome State Fault Refusal :=
  checked (fun s => answer (fun out => .outputs out.1 out.2) (outputsLookup s.cfg st) s) s

/-- The first edge of an iteration (R86): `outputs_for`, both writes, and the start of `wait_units` (R80, R87: one tick). -/
def iterationStart (s : State) : Except Fault State :=
  match outputsLookup s.cfg s.cur, rowAt s.cfg s.cur with
  | .ok (po, so), .ok r => startUnits r.dwell (driveOutputs po so s)
  | .error f, _ => .error f
  | _, .error f => .error f

/-- The last edge of an iteration (R86): `s_(i+1) = step(s_i, c_i)`, and the loop begins again with OUT. -/
def iterationEnd (s : State) : Except Fault State :=
  match stepLookup s.cfg s.cur s.inp with
  | .ok target => .ok (State.setPh .out (moveTo target (timerTick s)))
  | .error f => .error f

/-- One pass of the loop body of R86: write outputs, wait `T[CUR].dwell` units, sample, transition. -/
def iteration (s : State) : Pass :=
  (onEdge (withCur iterationStart) s).andThen fun s1 =>
    (tickUntilUnits (s1.ucnt * s1.cfg.unitTicks) s1).andThen fun s2 =>
      (onEdge (fun t => .ok (latchInput (timerTick t))) s2).andThen (onEdge iterationEnd)

/-- run() (R86) never returns (R91): one execution is one pass of its loop, after which the loop is at its beginning
again. DESIGN CHOICE, safe (log 13). -/
def execRun (s : State) : Host.Outcome State Fault Refusal :=
  checked (fun s => (iteration s).outcome) s

end Sys2Proof.Machine
end

