-- ==== Sys2Proof/Machine/Timing.lean ====
section
/-! DEFINITION. The timing primitive (41_timing_ops.md). Each operation is made under the check of the configuration (`checked`). -/

namespace Sys2Proof.Machine

/-- TMR_START(n) (R100). -/
def execTmrStart (n : Nat) (s : State) : Host.Outcome State Fault Refusal :=
  checked (fun s => (onEdge (timerStart n) s).outcome) s

/-- TMR_TICK (R101). -/
def execTmrTick (s : State) : Host.Outcome State Fault Refusal :=
  checked (fun s => (onEdge (fun t => .ok (timerTick t)) s).outcome) s

/-- The start of `wait_ticks(n)` (R103): TMR_START, for a legal `n`. -/
def waitTicksStart (n : Nat) (s : State) : Except Fault State :=
  if WaitTicksLegal s.cfg n then timerStart n s else .error (.ticksRange n)

/-- wait_ticks(n) (R103): TMR_START(n), then TMR_TICK until `expire`. -/
def execWaitTicks (n : Nat) (s : State) : Host.Outcome State Fault Refusal :=
  checked (fun s => ((onEdge (waitTicksStart n) s).andThen (tickUntilExpire n)).outcome) s

/-- wait_units(n) (R106): TMR_START(UNIT_TICKS) and UCNT <- n, then TMR_TICK until the last unit is over. For `n = 0` it
returns at its issuing tick t0 (R107): that this tick passes, with no start and so with TMR_TICK (R101), is the model's reading.
DEDUCED, unsafe for durations (log 28). For `n >= 2^DWELL_W`, beyond the operand's range and the width of UCNT, the wait keeps
what R107 says of every `n >= 0`: it lasts `n * UNIT_TICKS` ticks and returns with UCNT = 0 (R106); what UCNT holds in between is
a free value. DESIGN CHOICE, unsafe (log 10). -/
def execWaitUnits (n : Nat) (s : State) : Host.Outcome State Fault Refusal :=
  checked (fun s =>
    if n = 0 then (onEdge (fun t => .ok (timerTick t)) s).outcome
    else if n < 2 ^ s.cfg.dwellW then
      ((onEdge (startUnits n) s).andThen (tickUntilUnits (n * s.cfg.unitTicks))).outcome
    else
      ((onEdge startLongWait s).andThen fun t =>
        (tickFor (n * t.cfg.unitTicks) t).andThen fun u => .on (State.setUcnt 0 u)).outcome) s

end Sys2Proof.Machine
end

