-- ==== Sys2Proof/Machine/Dispatch.lean ====
section
/-! DEFINITION. One arm per operation. Every meaning makes the check of the configuration first (`checked`; log
26). -/

namespace Sys2Proof.Machine

def exec (i : Instr) (s : State) : Host.Outcome State Fault Refusal :=
  match i with
  | .state r => Sys2Proof.Machine.execState r s
  | .out => Sys2Proof.Machine.execOut s
  | .dwell => Sys2Proof.Machine.execDwell s
  | .sample => Sys2Proof.Machine.execSample s
  | .next => Sys2Proof.Machine.execNext s
  | .tmrStart n => Sys2Proof.Machine.execTmrStart n s
  | .tmrTick => Sys2Proof.Machine.execTmrTick s
  | .step st code => Sys2Proof.Machine.execStep st code s
  | .outputsFor st => Sys2Proof.Machine.execOutputsFor st s
  | .run => Sys2Proof.Machine.execRun s
  | .waitTicks n => Sys2Proof.Machine.execWaitTicks n s
  | .waitUnits n => Sys2Proof.Machine.execWaitUnits n s
  | .readInputs => Sys2Proof.Machine.execReadInputs s
  | .writeOutputs port bits mask => Sys2Proof.Machine.execWriteOutputs port bits mask s

end Sys2Proof.Machine
end

