-- ==== Sys2Proof/Machine/Step.lean ====
section
/-! DEFINITION. One step of the machine: one rising edge of CLK. -/

namespace Sys2Proof.Machine

/-- One step: the operation that PH selects fires (30_encoding.md R64), or reset, which every operation gives priority
(70_reset_and_hazards.md R140). A configuration that the check refuses has no run: every operation makes the check (10_state.md
R13, 60_exceptions.md R122; log 26). -/
def step (s : State) : Host.Outcome State Fault Refusal := exec (Instr.ofPhase s.ph) s

/-- `s` with an opcode-table word placed where step takes its next operation from: a row word is row CUR of the table, a
phase word is PH. The rest of the table, where it is not loaded, is loaded with the all-zero row word, the legal row E2 of
95_test_vectors.md, because a table with missing rows has no run (log 2). A timer command is no word that is fetched:
TSTART is a wire the phase drives (30_encoding.md R65), so such a word changes nothing (log 15). -/
def State.withFetchWord (s : State) (nbits w : Nat) : State :=
  match formatOfBits nbits with
  | some .row => s.withTable (Memory.fill s.cfg.nstates 0 (Memory.write s.cfg.rom s.cur w))
  | some .phase =>
    match decodePhase w with
    | .ok p => State.setPh p (s.withTable (Memory.fill s.cfg.nstates 0 s.cfg.rom))
    | .error _ => s
  | some .tcmd => s
  | none => s

end Sys2Proof.Machine
end

