-- ==== Sys2Proof/Machine/Notation.lean ====
section
/-! DEFINITION. The source notation for tables (30_encoding.md R70): `.config` and `.state` lines, read to a
configuration. -/

namespace Sys2Proof.Machine

/-- Why a text is no table. -/
inductive NotationError where
  /-- a line that is not of the form R70 gives -/
  | line
  /-- a numeral that is neither decimal nor 0x nor 0b -/
  | number
  /-- a next= or INIT= name that is the name of no .state line (WF1 in the notation) -/
  | name (n : List Char)
  /-- NSTATES is not the number of .state lines -/
  | nstates
  /-- the check of the built configuration -/
  | invalid (f : Fault)
deriving DecidableEq, Repr

/-- Split at every `sep`. -/
def splitAt (sep : Char) : List Char → List (List Char)
  | [] => [[]]
  | ch :: cs =>
    if ch = sep then [] :: splitAt sep cs
    else
      match splitAt sep cs with
      | [] => [[ch]]
      | w :: ws => (ch :: w) :: ws

/-- The words of a line. -/
def wordsIn (cs : List Char) : List (List Char) := (splitAt ' ' cs).filter fun w => w ≠ []

/-- The value of a digit in base 16. -/
def digit (ch : Char) : Option Nat :=
  if '0' ≤ ch ∧ ch ≤ '9' then some (ch.toNat - '0'.toNat)
  else if 'a' ≤ ch ∧ ch ≤ 'f' then some (ch.toNat - 'a'.toNat + 10)
  else if 'A' ≤ ch ∧ ch ≤ 'F' then some (ch.toNat - 'A'.toNat + 10)
  else none

/-- Read digits in base `b` after the value `acc`. -/
def digits (b : Nat) : Nat → List Char → Option Nat
  | acc, [] => some acc
  | acc, ch :: cs =>
    match digit ch with
    | some d => if d < b then digits b (acc * b + d) cs else none
    | none => none

/-- Decimal unless prefixed 0x (hexadecimal) or 0b (binary) (00_scope.md R8). -/
def numeral (cs : List Char) : Except NotationError Nat :=
  match cs with
  | '0' :: 'x' :: d :: ds => (digits 16 0 (d :: ds)).elim (.error .number) .ok
  | '0' :: 'b' :: d :: ds => (digits 2 0 (d :: ds)).elim (.error .number) .ok
  | d :: ds => (digits 10 0 (d :: ds)).elim (.error .number) .ok
  | [] => .error .number

/-- The value of `key=...` in a word. -/
def valueOf (key word : List Char) : Except NotationError (List Char) :=
  if key ++ ['='] <+: word then .ok (word.drop (key.length + 1)) else .error .line

/-- The number in `key=<n>`. -/
def numberOf (key : String) (word : List Char) : Except NotationError Nat := do
  numeral (← valueOf key.toList word)

/-- A `.state` line. -/
structure StateLine where
  name : List Char
  po : Nat
  so : Nat
  dwell : Nat
  next : List (List Char)
deriving DecidableEq, Repr

/-- Read a `.state` line. -/
def readState (line : List Char) : Except NotationError StateLine :=
  match wordsIn line with
  | [kw, name, po, so, dwell, next] =>
    if kw = ".state".toList then do
      return { name := name, po := ← numberOf "po" po, so := ← numberOf "so" so,
               dwell := ← numberOf "dwell" dwell, next := splitAt ',' (← valueOf "next".toList next) }
    else .error .line
  | _ => .error .line

/-- Read a `.config` line: the parameters (with no table and INIT unset) and the name of INIT. CLK_HZ is no word of the
line: the reference value stands. DESIGN CHOICE, unsafe for real times only (log 25). -/
def readConfig (line : List Char) : Except NotationError (Config × List Char) :=
  match wordsIn line with
  | [kw, k, ns, pw, sw, sm, se, dw, ut, ini] =>
    if kw = ".config".toList then do
      return ({ Config.reference with
                k := ← numberOf "K" k, nstates := ← numberOf "NSTATES" ns, pw := ← numberOf "PW" pw,
                sportW := ← numberOf "SPORT_W" sw, smask := ← numberOf "SMASK" sm, sensW := ← numberOf "SENS_W" se,
                dwellW := ← numberOf "DWELL_W" dw, unitTicks := ← numberOf "UNIT_TICKS" ut },
              ← valueOf "INIT".toList ini)
    else .error .line
  | _ => .error .line

/-- The identifier of a name: the first `.state` line is 0, the second 1, and so on. Two lines of one name are accepted
and the name means the first. DESIGN CHOICE, unsafe (log 25). -/
def identOf (lines : List StateLine) (n : List Char) : Except NotationError Nat :=
  match lines.findIdx? fun l => l.name = n with
  | some i => .ok i
  | none => .error (.name n)

/-- The row of a `.state` line. -/
def rowOf (lines : List StateLine) (l : StateLine) : Except NotationError Row := do
  return { po := l.po, so := l.so, dwell := l.dwell, next := ← l.next.mapM (identOf lines) }

/-- Read a table: a `.config` line and its `.state` lines. -/
def readTable (config : List Char) (states : List (List Char)) : Except NotationError Config := do
  let (c, initName) ← readConfig config
  let lines ← states.mapM readState
  if lines.length ≠ c.nstates then throw .nstates
  let i ← identOf lines initName
  let rows ← lines.mapM (rowOf lines)
  match buildConfig { c with init := i } rows with
  | .ok built => return built
  | .error f => throw (.invalid f)

end Sys2Proof.Machine
end

