-- ==== Sys2Proof/Safety.lean ====
section
/-! DEFINITION. What counts as a safe run: the invariants of 10_state.md R26 and the width of every register. -/

namespace Sys2Proof

open Sys2Proof.Machine

/-- `s` with `n` ticks gone by. -/
def after (n : Nat) (s : State) : State := { s with tick := s.tick + n, edges := s.edges + n }

/-- `n` steps of the machine. -/
def runTicks (n : Nat) (s : State) : Host.Outcome State Fault Refusal := Host.Core.run Sys2Proof.core n s

/-- Follow the table from state `s` through a list of input codes (40_engine_ops.md R86: the states depend only on the table and
the sampled codes). -/
def follow (c : Config) : Nat → List Nat → Option Nat
  | s, [] => some s
  | s, code :: codes =>
    match stepLookup c s code with
    | .ok t => follow c t codes
    | .error _ => none

/-- Every register holds a value of its width (10_state.md R10), CUR names a row (R11), and the ROM has its canonical
form. It holds in the reset state, whatever table is loaded. -/
structure InRange (s : State) : Prop where
  cur : s.cur < s.cfg.nstates
  init : s.cfg.init < s.cfg.nstates
  inp : s.inp < 2 ^ s.cfg.k
  ucnt : s.ucnt < 2 ^ s.cfg.dwellW
  pout : s.pout < 2 ^ s.cfg.pw
  sport : s.sport < 2 ^ s.cfg.sportW
  rom : Memory.wf s.cfg.rom = true

/-- The ports show the outputs of row `r` (10_state.md R26 (c)). -/
abbrev Shows (s : State) (r : Row) : Prop :=
  s.pout = r.po ∧ s.sport &&& s.cfg.smask = r.so &&& s.cfg.smask

/-- The invariant of 10_state.md R26 (a) to (c) for a valid configuration, with the count bound that makes every dwell
finite (70_reset_and_hazards.md R160). -/
structure Inv (s : State) : Prop where
  valid : Valid s.cfg
  range : InRange s
  /-- CNT never passes RELOAD: it is loaded from it and counts down. -/
  count : s.cnt ≤ s.reload
  /-- R26 (b), in DWELL. -/
  dwelling : s.ph = .dwell → ∀ r, rowAt s.cfg s.cur = .ok r →
    1 ≤ s.ucnt ∧ s.ucnt ≤ r.dwell ∧ s.reload.toNat = s.cfg.unitTicks - 1
  /-- R26 (b), elsewhere. -/
  idle : s.ph ≠ .dwell → s.ucnt = 0
  /-- R26 (c): after OUT the ports show the row of CUR. -/
  moore : s.ph ≠ .out → ∀ r, rowAt s.cfg s.cur = .ok r → Shows s r

/-- The output lag (10_state.md R26 (c), 70_reset_and_hazards.md R152): between NEXT and the following OUT the ports
still show the row that the last transition left; in every other phase the last event is no transition. -/
structure LagInv (s : State) : Prop where
  lag : s.ph = .out → ∀ t src dst, s.history.getLast? = some (.transition t src dst) →
    ∀ r, rowAt s.cfg src = .ok r → Shows s r
  last : s.ph ≠ .out → ∀ t src dst, s.history.getLast? ≠ some (.transition t src dst)

/-- The outputs written are always those of a table row (70_reset_and_hazards.md R149 (b)). -/
def WritesAreRows (s : State) : Prop :=
  ∀ t po som, Event.outWrite t po som ∈ s.history →
    ∃ st r, st < s.cfg.nstates ∧ rowAt s.cfg st = .ok r ∧ po = r.po ∧ som = r.so &&& s.cfg.smask

/-- Every transition recorded is one the table names (40_engine_ops.md R83). -/
def MovesAreTable (s : State) : Prop :=
  ∀ t src dst, Event.transition t src dst ∈ s.history →
    ∃ code, code < s.cfg.ncodes ∧ stepLookup s.cfg src code = .ok dst

end Sys2Proof
end

