-- ==== Sys2Proof/Certificates/Slice0/Obligations.lean ====
section
/-! DEFINITION. The statements for the provers. Every statement about a next state writes it as `s` with the changed
fields, so it says its frame: whatever is not named is unchanged, the table among it. `rstNow s = false` and `QuietFor s n`
say that the environment does not assert RST at the edges concerned; what happens when it does is `ResetWinsAtAnyEdge`. `Valid s.cfg` says that the configuration passes the check; what happens
where it does not is `InvalidConfigurationHasNoRun`. -/

open Sys2Proof Sys2Proof.Machine

/-! ### Encodings -/

/-- Words written out from 30_encoding.md R60, R64, R65 and the vectors E1 to E7 of 95_test_vectors.md. That a timer
command's reload operand stands above TSTART is the model's choice (log 15). -/
def Obligations.WrittenWordsDecode : Prop :=
  decode Config.reference .row 0x1111110000640221 = .ok (.state ⟨0x21, 0x02, 100, [0, 0, 1, 1, 1, 1, 1, 1]⟩) ∧
  decode Config.reference .row 0x5554555500640824 = .ok (.state ⟨0x24, 0x08, 100, [5, 5, 5, 5, 4, 5, 5, 5]⟩) ∧
  decode Config.reference .row 0x1111110000640261 = .error (.padding .po) ∧
  decode Config.reference .row 0x9111110000640221 = .error .targetRange ∧
  decode Config.reference .phase 0 = .ok .out ∧ decode Config.reference .phase 1 = .ok .dwell ∧
  decode Config.reference .phase 2 = .ok .sample ∧ decode Config.reference .phase 3 = .ok .next ∧
  decode Config.reference .tcmd 1 = .ok (.tmrStart 1) ∧ decode Config.reference .tcmd 0 = .ok .tmrTick

/-- R61: decoding an encoded well-formed operation gives it back, at every configuration and operand. -/
def Obligations.DecodeInvertsEncode : Prop :=
  ∀ (c : Config) (i : Instr) (f : Format) (w : Nat),
    i.wf c = true → encode c i = some (f, w) → decode c f w = .ok i

/-- R61: a word that decodes is the encoding of what it decodes to, which is well formed: a format gives each word one
meaning, and no dangling target, padding bit or wide field gets through (R68). -/
def Obligations.EncodeInvertsDecode : Prop :=
  ∀ (c : Config) (f : Format) (w : Nat) (i : Instr),
    decode c f w = .ok i → encode c i = some (f, w) ∧ i.wf c = true

/-- R60: the place of every field of a row word, its zero padding, the word's width, and the reference layout. -/
def Obligations.RowFieldsStandInTheirContainers : Prop :=
  (∀ (c : Config) (r : Row), r.WF c →
    bitsAt (encodeRow c r) 0 c.pw = r.po ∧
    bitsAt (encodeRow c r) c.pw (c4 c.pw - c.pw) = 0 ∧
    bitsAt (encodeRow c r) (c4 c.pw) c.sportW = r.so ∧
    bitsAt (encodeRow c r) (c4 c.pw + c.sportW) (c4 c.sportW - c.sportW) = 0 ∧
    bitsAt (encodeRow c r) (c4 c.pw + c4 c.sportW) c.dwellW = r.dwell ∧
    bitsAt (encodeRow c r) (c4 c.pw + c4 c.sportW + c.dwellW) (c4 c.dwellW - c.dwellW) = 0 ∧
    (∀ code t, r.next[code]? = some t →
      bitsAt (encodeRow c r) (c4 c.pw + c4 c.sportW + c4 c.dwellW + code * c4 c.sw) c.sw = t ∧
      bitsAt (encodeRow c r) (c4 c.pw + c4 c.sportW + c4 c.dwellW + code * c4 c.sw + c.sw) (c4 c.sw - c.sw) = 0) ∧
    encodeRow c r < 2 ^ (c4 c.pw + c4 c.sportW + c4 c.dwellW + 2 ^ c.k * c4 c.sw)) ∧
  Config.reference.soLo = 8 ∧ Config.reference.dwellLo = 16 ∧ Config.reference.nextLo = 32 ∧
  Config.reference.nextW = 4 ∧ Config.reference.rowW = 64

/-- R72: a table image is read back to the same words, row by row, each `ceil(ROW_W / 8)` bytes, least significant first. -/
def Obligations.TableImageReadsBack : Prop :=
  (∀ (c : Config) (ws : List Nat), (∀ w ∈ ws, w < 2 ^ c.rowW) →
    wordsOf c ws.length (imageOf c ws) = .ok ws ∧
    (imageOf c ws).length = ws.length * ((c.rowW + 7) / 8) ∧
    ∀ s w j, ws[s]? = some w → j < (c.rowW + 7) / 8 →
      ((imageOf c ws)[s * ((c.rowW + 7) / 8) + j]?).map BitVec.toNat = some (w / 256 ^ j % 256)) ∧
  imageOf Config.reference [0x1111110000640221] = [0x21, 0x02, 0x64, 0x00, 0x00, 0x11, 0x11, 0x11]

/-! ### The timing primitive -/

/-- R100. -/
def Obligations.TmrStartLoadsReloadAndClearsCount : Prop :=
  ∀ (s : State) (n : Nat), Valid s.cfg → rstNow s = false →
    (1 ≤ n → n ≤ 2 ^ 24 → (BitVec.ofNat 24 (n - 1)).toNat = n - 1 ∧
      exec (.tmrStart n) s = .next (after 1 { s with reload := BitVec.ofNat 24 (n - 1), cnt := 0 })) ∧
    (n = 0 ∨ 2 ^ 24 < n → exec (.tmrStart n) s = .fault (.ticksRange n))

/-- R101: one tick reloads at zero and else decrements without wrapping, nothing else changes; from a count that RELOAD
bounds the timer repeats with period RELOAD + 1 and no shorter one; and it ticks at every step of the machine that is not
the TMR_START of an OUT with a nonzero dwell, in every phase. -/
def Obligations.TmrTickCountsDownWithPeriodReloadPlusOne : Prop :=
  (∀ s : State, Valid s.cfg → rstNow s = false → ∃ nxt : TimerWord,
    exec .tmrTick s = .next (after 1 { s with cnt := nxt }) ∧
    (s.cnt = 0 → nxt = s.reload) ∧ (s.cnt ≠ 0 → nxt.toNat + 1 = s.cnt.toNat) ∧
    (expire false s = true ↔ nxt = 0)) ∧
  (∀ s : State, s.cnt ≤ s.reload → ∀ n,
    ((timerTick^[n] s).cnt = s.cnt ↔ (s.reload.toNat + 1) ∣ n)) ∧
  (∀ s t : State, rstNow s = false → step s = .next t →
    (s.ph = .out → ∀ r, rowAt s.cfg s.cur = .ok r → r.dwell = 0) →
    t.reload = s.reload ∧ (s.cnt = 0 → t.cnt = s.reload) ∧ (s.cnt ≠ 0 → t.cnt.toNat + 1 = s.cnt.toNat))

/-- R102. -/
def Obligations.ExpireIsTheZeroOfTheCount : Prop :=
  ∀ s : State,
    expire true s = false ∧
    (expire false s = true ↔ s.cnt = 1 ∨ (s.cnt = 0 ∧ s.reload = 0)) ∧
    (Valid s.cfg → rstNow s = false → ∃ t, exec .tmrTick s = .next t ∧ (expire false s = true ↔ t.cnt = 0) ∧
      t = after 1 { s with cnt := t.cnt })

/-- R104: `wait_ticks(n)` performs exactly `n` TMR_TICKs after its start and `expire` is true at the last alone. The band
that TICKS_MARGIN may refuse (U3) is empty at its default 0. -/
def Obligations.WaitTicksLastsExactlyN : Prop :=
  ∀ (s : State) (n : Nat), Valid s.cfg → 1 ≤ n → n + s.cfg.ticksMargin ≤ 2 ^ 24 → QuietFor s (n + 1) →
    exec (.waitTicks n) s =
      .next (after (n + 1) { s with reload := BitVec.ofNat 24 (n - 1), cnt := 0 }) ∧
    ∀ j, j < n →
      (expire false (timerTick^[j] { s with reload := BitVec.ofNat 24 (n - 1), cnt := 0 }) = true ↔ j + 1 = n)

/-- R103, U2: outside `[1, 2^24]` the wait faults; U3: so does the band TICKS_MARGIN refuses. -/
def Obligations.WaitTicksFaultsOutsideItsDomain : Prop :=
  ∀ (s : State) (n : Nat), Valid s.cfg → rstNow s = false → n = 0 ∨ 2 ^ 24 < n + s.cfg.ticksMargin →
    exec (.waitTicks n) s = .fault (.ticksRange n)

/-- R107: `wait_units(n)` lasts exactly `n * UNIT_TICKS` ticks after its issuing tick, none at all for `n = 0`, which starts no
wait; started at a tick, the timer expires at every UNIT_TICKS-th tick after it and at no other. That the issuing tick of
`wait_units(0)` passes, with a tick of the timer, is log 28 (DEDUCED). -/
def Obligations.WaitUnitsLastsExactlyNUnits : Prop :=
  ∀ (s : State) (n : Nat), Valid s.cfg → n < 2 ^ s.cfg.dwellW →
    (n = 0 → rstNow s = false → exec (.waitUnits n) s = .next (after 1 { s with cnt := nextCount s })) ∧
    (1 ≤ n → QuietFor s (n * s.cfg.unitTicks + 1) →
      exec (.waitUnits n) s =
        .next (after (n * s.cfg.unitTicks + 1)
          { s with ucnt := 0, reload := BitVec.ofNat 24 (s.cfg.unitTicks - 1), cnt := 0 })) ∧
    ∀ j, expire false
        (timerTick^[j] { s with reload := BitVec.ofNat 24 (s.cfg.unitTicks - 1), cnt := 0 }) = true ↔
      s.cfg.unitTicks ∣ j + 1

/-- A count that UCNT cannot hold, beyond R106's range, waits as long as R107 says of every `n`, and returns with UCNT = 0 as
R106 does; that it runs at all, with a free value in UCNT meanwhile, is the model's choice (log 10). -/
def Obligations.WaitUnitsBeyondTheWidthOfUcntLastsAsLong : Prop :=
  ∀ (s : State) (n : Nat), Valid s.cfg → 2 ^ s.cfg.dwellW ≤ n → QuietFor s (n * s.cfg.unitTicks + 1) →
    exec (.waitUnits n) s =
      .next (after (n * s.cfg.unitTicks + 1)
        { s with ucnt := 0, reload := BitVec.ofNat 24 (s.cfg.unitTicks - 1), cnt := 0, draws := s.draws + 1 })

/-! ### The engine -/

/-- R80: both ports at one edge, UCNT, and either TMR_START of one unit and DWELL, or no start and SAMPLE. -/
def Obligations.OutDrivesPortsAndLoadsDwell : Prop :=
  ∀ (s : State) (r : Row), Valid s.cfg → rstNow s = false → rowAt s.cfg s.cur = .ok r →
    (r.dwell = 0 → exec .out s = .next (after 1
      { s with pout := r.po, sport := (s.sport &&& notAt s.cfg.sportW s.cfg.smask) ||| (r.so &&& trunc s.cfg.sportW s.cfg.smask),
               ucnt := 0, cnt := nextCount s, ph := .sample,
               history := s.history ++ [.outWrite (s.tick + 1) r.po (r.so &&& s.cfg.smask)] })) ∧
    (r.dwell ≠ 0 → exec .out s = .next (after 1
      { s with pout := r.po, sport := (s.sport &&& notAt s.cfg.sportW s.cfg.smask) ||| (r.so &&& trunc s.cfg.sportW s.cfg.smask),
               ucnt := r.dwell, reload := BitVec.ofNat 24 (s.cfg.unitTicks - 1), cnt := 0, ph := .dwell,
               history := s.history ++ [.outWrite (s.tick + 1) r.po (r.so &&& s.cfg.smask)] }))

/-- R81, one tick. At UCNT = 0, which no run reaches, the new UCNT is a free value (log 9): the statement holds for
whatever value that is. -/
def Obligations.DwellTickCountsUnits : Prop :=
  ∀ s : State, Valid s.cfg → s.cur < s.cfg.nstates → rstNow s = false →
    (expire false s = false → exec .dwell s = .next (after 1 { s with cnt := nextCount s })) ∧
    (expire false s = true → s.ucnt = 1 →
      exec .dwell s = .next (after 1 { s with cnt := 0, ucnt := 0, ph := .sample })) ∧
    (expire false s = true → 2 ≤ s.ucnt →
      exec .dwell s = .next (after 1 { s with cnt := 0, ucnt := s.ucnt - 1 })) ∧
    (expire false s = true → s.ucnt = 0 →
      ∃ v, v < 2 ^ s.cfg.dwellW ∧
        exec .dwell s = .next (after 1 { s with cnt := 0, ucnt := v, draws := s.draws + 1 }))

/-- R81: the engine stays in DWELL for exactly `T[CUR].dwell * UNIT_TICKS` ticks, during which it makes no boundary
access and does not read the sensors. -/
def Obligations.DwellLastsExactlyItsUnits : Prop :=
  ∀ (s : State) (d : Nat), Valid s.cfg → s.cur < s.cfg.nstates → s.ph = .dwell → s.ucnt = d → 1 ≤ d → s.cnt = 0 →
    s.reload.toNat + 1 = s.cfg.unitTicks → QuietFor s (d * s.cfg.unitTicks) →
    runTicks (d * s.cfg.unitTicks) s =
      .next (after (d * s.cfg.unitTicks) { s with ucnt := 0, cnt := 0, ph := .sample }) ∧
    ∀ j, j < d * s.cfg.unitTicks →
      ∃ cnt ucnt, runTicks j s = .next (after j { s with cnt := cnt, ucnt := ucnt })

/-- R82. -/
def Obligations.SampleLatchesTheLowBits : Prop :=
  ∀ s : State, Valid s.cfg → s.cur < s.cfg.nstates → rstNow s = false →
    exec .sample s = .next (after 1
      { s with inp := readSens s % 2 ^ s.cfg.k, ph := .next, cnt := nextCount s,
               history := s.history ++ [.sample (s.tick + 1) (readSens s) (readSens s % 2 ^ s.cfg.k)] })

/-- R83. -/
def Obligations.NextFollowsTheTable : Prop :=
  ∀ (s : State) (r : Row) (target : Nat), Valid s.cfg → rstNow s = false → rowAt s.cfg s.cur = .ok r → s.inp < 2 ^ s.cfg.k →
    r.next[s.inp]? = some target →
    target < s.cfg.nstates ∧
    exec .next s = .next (after 1
      { s with cur := target, ph := .out, cnt := nextCount s,
               history := s.history ++ [.transition (s.tick + 1) s.cur target] })

/-- Where NEXT stops by name at a CUR that names a row, in states that no run reaches (log 20: the model's reading): IN is no
code. STATE stops so too where PH selects NEXT. No other phase stops at such a CUR: that is said by the statements of each
phase. -/
def Obligations.PhasesStopByNameWhereNoRunGoes : Prop :=
  ∀ s : State, Valid s.cfg → s.cur < s.cfg.nstates → rstNow s = false → 2 ^ s.cfg.k ≤ s.inp →
    exec .next s = .fault (.inputCodeRange s.cur s.inp) ∧
    ∀ r, r.WF s.cfg → s.ph = .next → exec (.state r) s = .fault (.inputCodeRange s.cur s.inp)

/-- R68, R122, U1: a CUR that names no row gets no meaning from any engine operation: each is refused as TableInvalid, whatever
the rest of the state holds, a row of its own or an IN that is no code among it (the order of the faults: log 17). A step of the
machine is so refused too; reset alone leads on, whatever CUR holds. -/
def Obligations.CurThatNamesNoRowHasNoMeaning : Prop :=
  ∀ s : State, Valid s.cfg → s.cfg.nstates ≤ s.cur →
    (rstNow s = false →
      step s = .fault (.tableInvalid .identifier s.cur) ∧
      ∀ i, (∃ r, i = .state r) ∨ i = .out ∨ i = .dwell ∨ i = .sample ∨ i = .next ∨ i = .run →
        exec i s = .fault (.tableInvalid .identifier s.cur)) ∧
    (rstNow s = true → ∃ t, step s = .next t ∧ t.cur < t.cfg.nstates)

/-- R84: total and closed on its domain, whatever else the state holds; outside it the model faults. -/
def Obligations.StepIsATotalTableLookup : Prop :=
  ∀ (c : Config) (st code : Nat), Valid c →
    (st < c.nstates → code < 2 ^ c.k →
      ∃ r target, rowAt c st = .ok r ∧ r.next[code]? = some target ∧ target < c.nstates ∧
        ∀ s : State, s.cfg = c → exec (.step st code) s = .next { s with ret := .ident target }) ∧
    (st < c.nstates → 2 ^ c.k ≤ code →
      ∀ s : State, s.cfg = c → exec (.step st code) s = .fault (.inputCodeRange st code)) ∧
    (c.nstates ≤ st → code < 2 ^ c.k → ∀ s : State, s.cfg = c → exec (.step st code) s = .fault (.stateRange st))

/-- With both operands out of range step faults by the lower fault number, InputCodeRange (log 17: the model's choice; R84
names both faults and orders them not). -/
def Obligations.StepWithBothOperandsOutFaultsByTheLowerNumber : Prop :=
  ∀ (s : State) (st code : Nat), Valid s.cfg → s.cfg.nstates ≤ st → 2 ^ s.cfg.k ≤ code →
    exec (.step st code) s = .fault (.inputCodeRange st code) ∧
    (Fault.inputCodeRange st code).number < (Fault.stateRange st).number

/-- R85: the outputs of a state depend on the table alone. -/
def Obligations.OutputsForReadsTheRow : Prop :=
  ∀ (c : Config) (st : Nat), Valid c →
    (st < c.nstates → ∃ r, rowAt c st = .ok r ∧
      ∀ s : State, s.cfg = c → exec (.outputsFor st) s = .next { s with ret := .outputs r.po r.so }) ∧
    (c.nstates ≤ st → ∀ s : State, s.cfg = c → exec (.outputsFor st) s = .fault (.stateRange st))

/-- R45, R56: the value the environment presents at the edge, within SENS_W bits; nothing else changes. That a read of its own
takes no tick, sees the boundary at the coming edge and is not touched by RST = 1 there is log 12 (the model's choice). -/
def Obligations.ReadInputsReturnsTheBoundary : Prop :=
  ∀ s : State, Valid s.cfg →
    exec .readInputs s = .next { s with ret := .bits (readSens s) } ∧
    readSens s < 2 ^ s.cfg.sensW ∧
    ∀ v, scripted s.env.sens (s.edges + 1) = some v → readSens s = v % 2 ^ s.cfg.sensW

/-- R47, bit by bit: the bits under the mask take the new value, the others stay; nothing but the named port changes, save the
count of the free-running timer. That a write of its own is made at one tick, at which the timer ticks, is log 12 (DEDUCED); that
bits of `bits` and `mask` above the port's width do nothing is log 19 (DEDUCED). -/
def Obligations.WriteOutputsMasksThePort : Prop :=
  ∀ (s : State) (bits mask : Nat), Valid s.cfg → rstNow s = false →
    (∃ v, exec (.writeOutputs .sport bits mask) s = .next (after 1 { s with sport := v, cnt := nextCount s }) ∧
      ∀ i, v.testBit i = (decide (i < s.cfg.sportW) && (if mask.testBit i then bits.testBit i else s.sport.testBit i))) ∧
    (∃ v, exec (.writeOutputs .pout bits mask) s = .next (after 1 { s with pout := v, cnt := nextCount s }) ∧
      ∀ i, v.testBit i = (decide (i < s.cfg.pw) && (if mask.testBit i then bits.testBit i else s.pout.testBit i)))

/-- STATE: the row word under execution runs the phase PH selects with the row's own fields (log 14: the model's
reading of R11 and R60); an ill-formed row is refused as TableInvalid. -/
def Obligations.StateRowRunsThePhaseOfPh : Prop :=
  ∀ (s : State) (r : Row), Valid s.cfg → s.cur < s.cfg.nstates → rstNow s = false →
    (r.WF s.cfg → s.inp < 2 ^ s.cfg.k → ∃ t, exec (.state r) s = .next t ∧
      t.cfg = s.cfg ∧ t.env = s.env ∧ t.ret = s.ret ∧ t.tick = s.tick + 1 ∧ t.edges = s.edges + 1 ∧
      (s.ph = .out → t.pout = r.po ∧ t.sport = maskedWrite s.cfg.sportW s.sport r.so s.cfg.smask ∧ t.ucnt = r.dwell ∧
        t.ph = (if r.dwell = 0 then .sample else .dwell) ∧ t.cur = s.cur ∧ t.inp = s.inp ∧ t.draws = s.draws ∧
        (r.dwell = 0 → t.reload = s.reload ∧ t.cnt = nextCount s) ∧
        (r.dwell ≠ 0 → t.reload.toNat + 1 = s.cfg.unitTicks ∧ t.cnt = 0) ∧
        t.history = s.history ++ [.outWrite (s.tick + 1) r.po (r.so &&& s.cfg.smask)]) ∧
      (s.ph = .dwell → exec .dwell s = .next t) ∧
      (s.ph = .sample → exec .sample s = .next t) ∧
      (s.ph = .next → r.next[s.inp]? = some t.cur ∧ t.ph = .out ∧ t.cnt = nextCount s ∧ t.inp = s.inp ∧
        t.pout = s.pout ∧ t.sport = s.sport ∧ t.ucnt = s.ucnt ∧ t.reload = s.reload ∧ t.draws = s.draws ∧
        t.history = s.history ++ [.transition (s.tick + 1) s.cur t.cur])) ∧
    (∀ cond, r.failure s.cfg = some cond → exec (.state r) s = .fault (.tableInvalid cond s.cur))

/-- R86: one pass of the loop of `run()`, with every register it leaves and the three events of the history. -/
def Obligations.RunPassFollowsTheLoop : Prop :=
  ∀ (s : State) (r : Row), Valid s.cfg → rowAt s.cfg s.cur = .ok r →
    QuietFor s (r.dwell * s.cfg.unitTicks + 3) →
    ∃ raw code target,
      raw = sensAt s.cfg s.env (s.edges + r.dwell * s.cfg.unitTicks + 2) ∧ code = raw % 2 ^ s.cfg.k ∧
      stepLookup s.cfg s.cur code = .ok target ∧
      ∃ timer : State,
        timer = (if r.dwell = 0 then timerTick s
          else { s with reload := BitVec.ofNat 24 (s.cfg.unitTicks - 1), cnt := 0 }) ∧
        exec .run s = .next (after (r.dwell * s.cfg.unitTicks + 3)
          { s with
            cur := target, ph := .out, inp := code, ucnt := 0
            reload := timer.reload, cnt := (timerTick (timerTick timer)).cnt
            pout := r.po, sport := maskedWrite s.cfg.sportW s.sport r.so s.cfg.smask
            history := s.history ++
              [.outWrite (s.tick + 1) r.po (r.so &&& s.cfg.smask),
               .sample (s.tick + r.dwell * s.cfg.unitTicks + 2) raw code,
               .transition (s.tick + r.dwell * s.cfg.unitTicks + 3) s.cur target] })

/-- R87: the four clocked phases implement the loop of `run()`: from OUT, `T[CUR].dwell * UNIT_TICKS + 3` steps of the
machine are one pass of it. -/
def Obligations.ClockedPhasesImplementRun : Prop :=
  ∀ (s : State) (r : Row), Valid s.cfg → rowAt s.cfg s.cur = .ok r → s.ph = .out →
    QuietFor s (r.dwell * s.cfg.unitTicks + 3) →
    runTicks (r.dwell * s.cfg.unitTicks + 3) s = exec .run s

/-! ### The machine as a whole -/

/-- A step runs the decoded operation: the one PH decodes to, and the row word that the ROM holds at CUR. -/
def Obligations.StepRunsTheDecodedOperation : Prop :=
  ∀ s : State, Valid s.cfg →
    (∀ i, decode s.cfg .phase (Phase.code s.ph) = .ok i → step s = exec i s) ∧
    (∀ w i, s.cur < s.cfg.nstates → Memory.read s.cfg.rom s.cur = some w → decode s.cfg .row w = .ok i →
      step s = exec i s)

/-- R13 with the constraint column of R5: what the check of a configuration accepts: the parameters within their
constraints (popcount(SMASK) <= SPORT_W is no more than SMASK < 2^SPORT_W), WF3, WF5, and every row present with WF1, WF2,
WF4. That R5's constraints are part of the check is log 16 (DEDUCED). -/
def Obligations.ValidMeansWellFormed : Prop :=
  ∀ c : Config, Valid c ↔
    (1 ≤ c.k ∧ 1 ≤ c.pw ∧ 0 < c.smask ∧ c.smask < 2 ^ c.sportW ∧ c.k ≤ c.sensW ∧ 1 ≤ c.dwellW ∧ 0 < c.clkHz) ∧
    1 ≤ c.nstates ∧ c.init < c.nstates ∧ 1 ≤ c.unitTicks ∧ c.unitTicks ≤ 2 ^ 24 ∧
    ∀ st, st < c.nstates → ∃ w r, Memory.read c.rom st = some w ∧ decodeRow c w = .ok r ∧
      r.next.length = 2 ^ c.k ∧ (∀ t ∈ r.next, t < c.nstates) ∧
      r.po < 2 ^ c.pw ∧ r.so < 2 ^ c.sportW ∧ r.dwell < 2 ^ c.dwellW

/-- R13, R122: a configuration that the check refuses gets no value: every step and every operation, executed by name, stops with
the TableInvalid that the check records. That a broken constraint of R5 counts as invalid, and that the check stands at every
step, RST = 1 or not, is log 16; that it stands before every operation, those that read no row among them, log 26 (the
model's). -/
def Obligations.InvalidConfigurationHasNoRun : Prop :=
  ∀ s : State, ¬ Valid s.cfg → ∃ cond row, configFailure s.cfg = some (.tableInvalid cond row) ∧
    step s = .fault (.tableInvalid cond row) ∧ ∀ i, exec i s = .fault (.tableInvalid cond row)

/-- R144, R146: building a configuration gives a valid one that holds exactly the rows given, and it refuses a table
with an ill-formed row. -/
def Obligations.BuiltConfigurationHoldsItsRows : Prop :=
  ∀ (c built : Config) (rows : List Row), buildConfig c rows = .ok built →
    Valid built ∧ built.nstates = rows.length ∧ Memory.wf built.rom = true ∧
    ∀ (st : Nat) (r : Row), rows[st]? = some r → r.WF built ∧ rowAt built st = .ok r

/-- R28: the predicate Reachable decides reachability: if it holds, every state is reached from INIT by some sequence of
input codes, and of a valid configuration it holds whenever every state is so reached. -/
def Obligations.ReachableStatesHaveAPath : Prop :=
  (∀ c : Config, Reachable c = true → ∀ st, st < c.nstates → ∃ codes, follow c c.init codes = some st) ∧
  (∀ c : Config, Valid c → (∀ st, st < c.nstates → ∃ codes, follow c c.init codes = some st) → Reachable c = true)

/-- R28: the predicate Connected says that every state has a transition, for some input code, into the states reached from
INIT. -/
def Obligations.ConnectedMeansATransitionBack : Prop :=
  ∀ c : Config, Valid c → (Connected c = true ↔
    ∀ st, st < c.nstates → ∃ code target, code < 2 ^ c.k ∧ stepLookup c st code = .ok target ∧
      ∃ codes, follow c c.init codes = some target)

/-- R25: the registers before tick 1, for every configuration, every port value bring-up left and every environment. The
values POUT and SPORT have in State.reset are the model's choice (log 5) and are not stated. -/
def Obligations.ResetValuesOfEveryRegister : Prop :=
  (∀ (c : Config) (pout sport : Nat) (env : Env),
    (State.launch c pout sport env).cur = c.init ∧ (State.launch c pout sport env).ph = .out ∧
    Phase.code (State.launch c pout sport env).ph = 0 ∧ (State.launch c pout sport env).inp = 0 ∧
    (State.launch c pout sport env).ucnt = 0 ∧ (State.launch c pout sport env).reload = 0 ∧
    (State.launch c pout sport env).cnt = 0 ∧ (State.launch c pout sport env).pout = pout ∧
    (State.launch c pout sport env).sport = sport ∧ (State.launch c pout sport env).cfg = c) ∧
  State.reset.cur = State.reset.cfg.init ∧ State.reset.ph = .out ∧ State.reset.inp = 0 ∧ State.reset.ucnt = 0 ∧
  State.reset.reload = 0 ∧ State.reset.cnt = 0

/-- R140: at an edge with RST = 1 the engine-owned registers take their reset values from any state of a valid configuration,
whichever operation that has an edge is due; no phase and no timer operation fires, no port is written, and the table and the
history keep theirs. tick and edges are the model's bookkeeping (log 8); that run and the waits end there is log 21 (DEDUCED).
The operations that read alone see no edge and return their value (log 12: the model's choice). -/
def Obligations.ResetWinsAtAnyEdge : Prop :=
  ∀ s : State, Valid s.cfg → rstNow s = true →
    (∃ t, t = { s with cur := s.cfg.init, ph := .out, inp := 0, ucnt := 0, reload := 0, cnt := 0,
                       tick := 0, edges := s.edges + 1 } ∧
      step s = .next t ∧
      (∀ i, (∃ r, i = .state r) ∨ i = .out ∨ i = .dwell ∨ i = .sample ∨ i = .next ∨ (∃ n, i = .tmrStart n) ∨
          i = .tmrTick ∨ i = .run ∨ (∃ n, i = .waitTicks n) ∨ (∃ n, i = .waitUnits n) ∨
          (∃ port bits mask, i = .writeOutputs port bits mask) →
        exec i s = .next t)) ∧
    exec .readInputs s = .next { s with ret := .bits (readSens s) } ∧
    (∀ st code, (∀ target, stepLookup s.cfg st code = .ok target →
        exec (.step st code) s = .next { s with ret := .ident target }) ∧
      (∀ f, stepLookup s.cfg st code = .error f → exec (.step st code) s = .fault f)) ∧
    (∀ st, (∀ po so, outputsLookup s.cfg st = .ok (po, so) →
        exec (.outputsFor st) s = .next { s with ret := .outputs po so }) ∧
      (∀ f, outputsLookup s.cfg st = .error f → exec (.outputsFor st) s = .fault f))

/-- R142: a reset in the middle of wait_ticks, wait_units or a pass of run() abandons it at that edge (log 21: DEDUCED for
the named operations): the machine is in the reset state, with what the earlier edges did to the ports and the history, and
no more. The draw of a wait_units too long for UCNT is log 10; the pass is log 13. -/
def Obligations.ResetAbandonsAWait : Prop :=
  ∀ (s : State) (k : Nat), Valid s.cfg → QuietFor s k → rstAt s.env (s.edges + 1 + k) = true →
    (∀ n, 1 ≤ n → n + s.cfg.ticksMargin ≤ 2 ^ 24 → k < n + 1 →
      exec (.waitTicks n) s = .next
        { s with cur := s.cfg.init, ph := .out, inp := 0, ucnt := 0, reload := 0, cnt := 0, tick := 0,
                 edges := s.edges + 1 + k }) ∧
    (∀ n, k < n * s.cfg.unitTicks + 1 →
      exec (.waitUnits n) s = .next
        { s with cur := s.cfg.init, ph := .out, inp := 0, ucnt := 0, reload := 0, cnt := 0, tick := 0,
                 edges := s.edges + 1 + k
                 draws := if n < 2 ^ s.cfg.dwellW ∨ k = 0 then s.draws else s.draws + 1 }) ∧
    (∀ r, rowAt s.cfg s.cur = .ok r → k < r.dwell * s.cfg.unitTicks + 3 →
      ∃ raw, raw = sensAt s.cfg s.env (s.edges + r.dwell * s.cfg.unitTicks + 2) ∧
      exec .run s = .next
        { s with cur := s.cfg.init, ph := .out, inp := 0, ucnt := 0, reload := 0, cnt := 0, tick := 0,
                 edges := s.edges + 1 + k
                 pout := if k = 0 then s.pout else r.po
                 sport := if k = 0 then s.sport else maskedWrite s.cfg.sportW s.sport r.so s.cfg.smask
                 history := s.history ++
                   (if k = 0 then [] else [.outWrite (s.tick + 1) r.po (r.so &&& s.cfg.smask)]) ++
                   (if k = r.dwell * s.cfg.unitTicks + 2 then
                     [.sample (s.tick + r.dwell * s.cfg.unitTicks + 2) raw (raw % 2 ^ s.cfg.k)] else []) })

/-- R26 (a) to (c) and the bound of CNT: every step keeps the invariant of a run. -/
def Obligations.EveryStepKeepsTheInvariant : Prop :=
  ∀ s t : State, Inv s → step s = .next t → Inv t

/-- The invariants hold before tick 1 of every valid configuration, whatever bring-up and the environment do. -/
def Obligations.InvariantHoldsAtLaunch : Prop :=
  ∀ (c : Config) (pout sport : Nat) (env : Env), Valid c → Memory.wf c.rom = true →
    pout < 2 ^ c.pw → sport < 2 ^ c.sportW →
    Inv (State.launch c pout sport env) ∧ LagInv (State.launch c pout sport env) ∧
    WritesAreRows (State.launch c pout sport env) ∧ MovesAreTable (State.launch c pout sport env)

/-- R10, R11: every step keeps every register within its width, CUR below NSTATES and the ROM in its canonical form. -/
def Obligations.EveryStepKeepsRegistersInRange : Prop :=
  ∀ s t : State, InRange s → step s = .next t → InRange t

/-- The registers are within their widths right after reset. -/
def Obligations.RegistersInRangeAtReset : Prop := InRange State.reset

/-- R123: with a valid configuration and registers within their widths, every tick has its step, at whatever phase and
count; so no fault is reachable in any number of ticks from the launch of any valid configuration. -/
def Obligations.EveryTickHasItsStep : Prop :=
  (∀ s : State, Valid s.cfg → InRange s → ∃ t, step s = .next t ∧ t.cfg = s.cfg ∧ InRange t) ∧
  (∀ (c : Config) (pout sport : Nat) (env : Env) (n : Nat), Valid c → Memory.wf c.rom = true →
    pout < 2 ^ c.pw → sport < 2 ^ c.sportW → ∃ t, runTicks n (State.launch c pout sport env) = .next t)

/-- R160: every iteration ends: from any point of a run the next OUT comes within `T[CUR].dwell * UNIT_TICKS + 3` ticks. -/
def Obligations.EveryIterationEnds : Prop :=
  ∀ (s : State) (r : Row), Inv s → rowAt s.cfg s.cur = .ok r → QuietFor s (r.dwell * s.cfg.unitTicks + 3) →
    ∃ k t, 1 ≤ k ∧ k ≤ r.dwell * s.cfg.unitTicks + 3 ∧ runTicks k s = .next t ∧ t.ph = .out ∧
      ∃ code, code < 2 ^ s.cfg.k ∧ stepLookup s.cfg s.cur code = .ok t.cur

/-- R150: two consecutive sampling instants are at most the longest gap apart, so a sensor value held for that long is
seen: from just after one sample the machine is just after the next within that many ticks, IN holding the value of that
very edge. -/
def Obligations.SamplingInstantsAreNoFurtherApartThanTheLongestGap : Prop :=
  ∀ s : State, Valid s.cfg → InRange s → s.ph = .next → QuietFor s (longestGap s.cfg) →
    ∃ k t, 3 ≤ k ∧ k ≤ longestGap s.cfg ∧ runTicks k s = .next t ∧ t.ph = .next ∧
      t.inp = sensAt s.cfg s.env (s.edges + k) % 2 ^ s.cfg.k ∧
      ∀ j, j < k → 1 ≤ j → ∃ u, runTicks j s = .next u ∧ u.ph ≠ .next

/-- R151: the outputs answer a sample two ticks after it, and not before. -/
def Obligations.OutputsAnswerTwoTicksAfterTheSample : Prop :=
  ∀ (s : State) (target : Nat) (r : Row), Valid s.cfg → InRange s → s.ph = .sample → QuietFor s 3 →
    stepLookup s.cfg s.cur (sensAt s.cfg s.env (s.edges + 1) % 2 ^ s.cfg.k) = .ok target → rowAt s.cfg target = .ok r →
    (∃ t1 t2, runTicks 1 s = .next t1 ∧ runTicks 2 s = .next t2 ∧ t1.pout = s.pout ∧ t1.sport = s.sport ∧
      t2.pout = s.pout ∧ t2.sport = s.sport ∧ t2.cur = target) ∧
    ∃ t3, runTicks 3 s = .next t3 ∧ t3.cur = target ∧ Shows t3 r

/-- R86, R158: what a pass of the loop leads to and drives depends on the sampled code alone and on no tick count: the same
table at another unit length, in another environment and with another timer, gives the same state and ports for the same
code. -/
def Obligations.PassesDoNotDependOnTickCounts : Prop :=
  ∀ (s s' t t' : State) (u : Nat) (r : Row), Valid s.cfg → Valid s'.cfg → s'.cfg = { s.cfg with unitTicks := u } →
    rowAt s.cfg s.cur = .ok r → s'.cur = s.cur → s'.sport = s.sport →
    QuietFor s (r.dwell * s.cfg.unitTicks + 3) → QuietFor s' (r.dwell * u + 3) →
    exec .run s = .next t → exec .run s' = .next t' → t'.inp = t.inp →
    t'.cur = t.cur ∧ t'.pout = t.pout ∧ t'.sport = t.sport

/-- R21: the bits of SPORT outside SMASK never change, at any tick of any run, reset included. -/
def Obligations.ForeignPortBitsNeverChange : Prop :=
  ∀ (n : Nat) (s t : State), runTicks n s = .next t →
    t.cfg = s.cfg ∧ t.sport &&& notAt s.cfg.sportW s.cfg.smask = s.sport &&& notAt s.cfg.sportW s.cfg.smask

/-- R10: which phase of a step may change which register (with no reset). -/
def Obligations.RegistersChangeOnlyInTheirPhase : Prop :=
  ∀ s t : State, rstNow s = false → step s = .next t →
    (s.ph ≠ .next → t.cur = s.cur) ∧ (s.ph ≠ .sample → t.inp = s.inp) ∧
    (s.ph ≠ .out → t.pout = s.pout ∧ t.sport = s.sport ∧ t.reload = s.reload) ∧
    (s.ph = .sample ∨ s.ph = .next → t.ucnt = s.ucnt) ∧
    (s.ph = .dwell → t.history = s.history) ∧
    (s.ph = .out → t.ph = .dwell ∨ t.ph = .sample) ∧ (s.ph = .dwell → t.ph = .dwell ∨ t.ph = .sample) ∧
    (s.ph = .sample → t.ph = .next) ∧ (s.ph = .next → t.ph = .out) ∧
    t.ret = s.ret ∧ t.tick = s.tick + 1 ∧ t.edges = s.edges + 1

/-- R12, R54: no operation writes the table or any parameter: every row of the ROM reads as before. -/
def Obligations.NoOperationWritesTheTable : Prop :=
  ∀ (i : Instr) (s t : State), exec i s = .next t →
    t.cfg = s.cfg ∧ t.env = s.env ∧ ∀ st, Memory.read t.cfg.rom st = Memory.read s.cfg.rom st

/-- The frame of the ports and of the history: only STATE, OUT, run and write_outputs write a port, reset included; the
timer operations, the pure ones and write_outputs record no event, and the pure ones change nothing but the returned value. That
read_inputs leaves tick and edges alone too and sees no RST, and that a write_outputs of its own records no event, is log 12 (the
model's choice). -/
def Obligations.PortsAndHistoryFrame : Prop :=
  ∀ (i : Instr) (s t : State), exec i s = .next t →
    (i = .dwell ∨ i = .sample ∨ i = .next ∨ (∃ n, i = .tmrStart n) ∨ i = .tmrTick ∨ (∃ a b, i = .step a b) ∨
        (∃ a, i = .outputsFor a) ∨ (∃ n, i = .waitTicks n) ∨ (∃ n, i = .waitUnits n) ∨ i = .readInputs →
      t.pout = s.pout ∧ t.sport = s.sport) ∧
    (i = .dwell ∨ (∃ n, i = .tmrStart n) ∨ i = .tmrTick ∨ (∃ n, i = .waitTicks n) ∨ (∃ n, i = .waitUnits n) ∨
        (∃ port bits mask, i = .writeOutputs port bits mask) →
      t.history = s.history ∧ t.ret = s.ret) ∧
    ((∃ a b, i = .step a b) ∨ (∃ a, i = .outputsFor a) ∨ i = .readInputs → t = { s with ret := t.ret })

/-- R22, R85: a Moore machine: what a step drives onto the ports does not depend on the sensors, on IN, on the timer or on
the history, only on the table and the control state. -/
def Obligations.OutputsDependOnTheStateAlone : Prop :=
  ∀ s s' t t' : State, s'.cfg = s.cfg → s'.cur = s.cur → s'.ph = s.ph → s'.pout = s.pout → s'.sport = s.sport →
    step s = .next t → step s' = .next t' → rstNow s' = rstNow s → t'.pout = t.pout ∧ t'.sport = t.sport

/-- R24, R45: outside SAMPLE the sensors are not read: any other environment with the same RST at this edge gives the same
step. -/
def Obligations.SensorsAreReadOnlyInSample : Prop :=
  ∀ (s t : State) (env : Env), s.ph ≠ .sample → rstAt env (s.edges + 1) = rstNow s → step s = .next t →
    step { s with env := env } = .next { t with env := env }

/-- R46: at SAMPLE only the low K bits of the boundary matter: two environments that agree on them give the same
registers. -/
def Obligations.HighSensorBitsNeverMatter : Prop :=
  ∀ (s t : State) (env : Env), s.ph = .sample → rstAt env (s.edges + 1) = rstNow s →
    sensAt s.cfg env (s.edges + 1) % 2 ^ s.cfg.k = sensAt s.cfg s.env (s.edges + 1) % 2 ^ s.cfg.k →
    step s = .next t →
    ∃ h, step { s with env := env } = .next { t with env := env, history := h }

/-- R52: the machine never reads the history: any other history gives the same step, with the same events appended. -/
def Obligations.HistoryIsWrittenNeverRead : Prop :=
  ∀ (s t : State) (h : List Event), step s = .next t →
    ∃ new, t.history = s.history ++ new ∧ step { s with history := h } = .next { t with history := h ++ new }

/-- R149 (b), R83: the outputs recorded are always those of a table row, and the transitions those of the table. -/
def Obligations.HistoryTellsOnlyOfTheTable : Prop :=
  ∀ s t : State, WritesAreRows s → MovesAreTable s → step s = .next t → WritesAreRows t ∧ MovesAreTable t

/-- R26 (c), R152: between NEXT and the following OUT the ports still show the row that was left. -/
def Obligations.OutputsLagOneTickAfterNext : Prop :=
  ∀ s t : State, Inv s → LagInv s → step s = .next t → LagInv t

/-- R6: UNIT_TICKS = CLK_HZ * UNIT_SECONDS, and the reference unit is 10 ms. -/
def Obligations.UnitTicksAreCalibrated : Prop :=
  (∀ c : Config, 0 < c.clkHz → (c.unitTicks : ℚ) = c.clkHz * c.unitSeconds) ∧
  Config.reference.unitSeconds = 1 / 100
end

