-- ==== Sys2Proof/Laws/Bits.lean ====
section
/-! SUPPORT. Bits, packed rows and the ROM: what the decoder and the encoder do to each other's results. -/

namespace Sys2Proof.Laws

open Sys2Proof.Machine

theorem le_c4 (w : Nat) : w ≤ c4 w := by unfold c4; omega

/-- Every state identifier fits in SW bits (00_scope.md R5). -/
theorem nstates_le_sw (c : Config) : c.nstates ≤ 2 ^ c.sw := by
  unfold Config.sw
  by_cases h : c.nstates ≤ 1
  · calc c.nstates ≤ 1 := h
      _ ≤ 2 ^ _ := Nat.one_le_two_pow
  · simp only [h, if_false]
    have h1 : c.nstates - 1 < 2 ^ (Nat.log2 (c.nstates - 1) + 1) := Nat.lt_log2_self
    have h2 : 2 ^ (Nat.log2 (c.nstates - 1) + 1) ≤ 2 ^ max 1 (Nat.log2 (c.nstates - 1) + 1) :=
      Nat.pow_le_pow_right (by norm_num) (le_max_right _ _)
    omega

/-- A field of a low part is not seen above it. -/
theorem bitsAt_add_high (x y a lo w : Nat) (hx : x < 2 ^ a) (h : a ≤ lo) :
    bitsAt (x + 2 ^ a * y) lo w = bitsAt y (lo - a) w := by
  unfold bitsAt
  obtain ⟨k, rfl⟩ := Nat.exists_eq_add_of_le h
  rw [Nat.shiftRight_eq_div_pow, Nat.shiftRight_eq_div_pow, pow_add, ← Nat.div_div_eq_div_mul,
    Nat.add_mul_div_left _ _ (by positivity), Nat.div_eq_of_lt hx]
  simp

/-- A field inside a low part does not see what stands above. -/
theorem bitsAt_add_low (x y a lo w : Nat) (h : lo + w ≤ a) :
    bitsAt (x + 2 ^ a * y) lo w = bitsAt x lo w := by
  unfold bitsAt
  obtain ⟨k, rfl⟩ := Nat.exists_eq_add_of_le h
  rw [Nat.shiftRight_eq_div_pow, Nat.shiftRight_eq_div_pow]
  have : x + 2 ^ (lo + w + k) * y = x + 2 ^ lo * (2 ^ w * (2 ^ k * y)) := by ring
  rw [this, Nat.add_mul_div_left _ _ (by positivity), Nat.add_mul_mod_self_left]

theorem bitsAt_zero_of_lt (x w : Nat) (h : x < 2 ^ w) : bitsAt x 0 w = x := by
  simp [bitsAt, Nat.mod_eq_of_lt h]

theorem bitsAt_padding (x lo w : Nat) (h : x < 2 ^ lo) : bitsAt x lo w = 0 := by
  simp [bitsAt, Nat.shiftRight_eq_div_pow, Nat.div_eq_of_lt h]

theorem bitsAt_lt (x lo w : Nat) : bitsAt x lo w < 2 ^ w := Nat.mod_lt _ (by positivity)

/-- Entry `i` of a packed list stands in container `i`. -/
theorem bitsAt_packNext (d w : Nat) (hw : w ≤ d) : ∀ (l : List Nat) (i t : Nat), (∀ x ∈ l, x < 2 ^ d) →
    l[i]? = some t → bitsAt (packNext d l) (i * d) w = t % 2 ^ w := by
  intro l
  induction l with
  | nil => intro i t _ h; simp at h
  | cons x xs ih =>
    intro i t hx h
    cases i with
    | zero =>
      have hxt : x = t := by simpa using h
      subst hxt
      rw [packNext, Nat.zero_mul, bitsAt_add_low _ _ _ _ _ (by omega)]
      simp [bitsAt]
    | succ i =>
      rw [packNext, bitsAt_add_high _ _ _ _ _ (hx x (by simp)) (by rw [Nat.succ_mul]; omega)]
      have : (i + 1) * d - d = i * d := by rw [Nat.succ_mul]; omega
      rw [this]
      exact ih i t (fun y hy => hx y (by simp [hy])) (by simpa using h)

theorem packNext_lt (d : Nat) : ∀ l : List Nat, (∀ x ∈ l, x < 2 ^ d) → packNext d l < 2 ^ (l.length * d)
  | [], _ => by simp [packNext]
  | x :: xs, h => by
    have h1 := h x (by simp)
    have h2 := packNext_lt d xs fun y hy => h y (by simp [hy])
    rw [packNext, List.length_cons, Nat.succ_mul, Nat.add_comm (xs.length * d), pow_add]
    calc x + 2 ^ d * packNext d xs < 2 ^ d + 2 ^ d * packNext d xs := by omega
      _ = 2 ^ d * (packNext d xs + 1) := by ring
      _ ≤ 2 ^ d * 2 ^ (xs.length * d) := Nat.mul_le_mul_left _ h2

/-- Reading `n` containers and packing them again gives the word back. -/
theorem packNext_containers (d : Nat) : ∀ (n w : Nat), w < 2 ^ (n * d) →
    packNext d ((List.range n).map fun i => bitsAt w (i * d) d) = w := by
  intro n
  induction n with
  | zero => intro w h; simp at h; simp [packNext, h]
  | succ n ih =>
    intro w h
    rw [List.range_succ_eq_map, List.map_cons, List.map_map, packNext]
    have h1 : ((fun i => bitsAt w (i * d) d) ∘ Nat.succ) = fun i => bitsAt (w / 2 ^ d) (i * d) d := by
      funext i
      simp only [Function.comp, bitsAt, Nat.shiftRight_eq_div_pow, Nat.succ_mul]
      rw [Nat.add_comm (i * d), pow_add, Nat.div_div_eq_div_mul]
    rw [h1, ih (w / 2 ^ d)]
    · simp only [bitsAt, Nat.zero_mul, Nat.shiftRight_zero]
      exact Nat.mod_add_div w (2 ^ d)
    · rw [Nat.div_lt_iff_lt_mul (by positivity), ← pow_add]
      rwa [Nat.succ_mul] at h

theorem row_wf_iff (c : Config) (r : Row) : r.WF c ↔
    r.next.length = 2 ^ c.k ∧ (r.po < 2 ^ c.pw ∧ r.so < 2 ^ c.sportW ∧ r.dwell < 2 ^ c.dwellW) ∧
    ∀ t ∈ r.next, t < c.nstates := by
  unfold Row.WF Row.failure Config.ncodes
  split_ifs with h1 h2 h3 <;> simp_all

/-- What a row word that decodes is: the one inversion lemma of `decodeRow`. -/
theorem decodeRow_ok_iff (c : Config) (w : Nat) (r : Row) : decodeRow c w = .ok r ↔
    w < 2 ^ c.rowW ∧ r.po = bitsAt w 0 (c4 c.pw) ∧ r.po < 2 ^ c.pw ∧
    r.so = bitsAt w c.soLo (c4 c.sportW) ∧ r.so < 2 ^ c.sportW ∧
    r.dwell = bitsAt w c.dwellLo (c4 c.dwellW) ∧ r.dwell < 2 ^ c.dwellW ∧
    r.next = nextEntries c w ∧ ∀ t ∈ r.next, t < c.nstates := by
  have hn := nstates_le_sw c
  constructor
  · intro h
    unfold decodeRow at h
    simp only at h
    split_ifs at h with h1 h2 h3 h4 h5 h6
    cases h
    simp_all
  · rintro ⟨h1, h2, h3, h4, h5, h6, h7, h8, h9⟩
    unfold decodeRow
    simp only
    rw [if_neg (by omega), if_neg (by omega), if_neg (by omega), if_neg (by omega),
      if_neg (by rw [← h8]; push Not; intro t ht; exact lt_of_lt_of_le (h9 t ht) hn),
      if_neg (by rw [← h8]; push Not; exact h9)]
    cases r
    simp_all

theorem nextEntries_length (c : Config) (w : Nat) : (nextEntries c w).length = c.ncodes := by
  simp [nextEntries]

theorem decodeRow_wf (c : Config) (w : Nat) (r : Row) (h : decodeRow c w = .ok r) : r.WF c := by
  obtain ⟨-, -, h1, -, h2, -, h3, h4, h5⟩ := (decodeRow_ok_iff c w r).1 h
  exact (row_wf_iff c r).2 ⟨by rw [h4, nextEntries_length]; rfl, ⟨h1, h2, h3⟩, h5⟩

/-! ### The encoder's containers -/

/-- Every field of a well-formed row fits its container. -/
theorem encodeRow_parts (c : Config) (r : Row) (h : r.WF c) :
    r.po < 2 ^ c4 c.pw ∧ r.so < 2 ^ c4 c.sportW ∧ r.dwell < 2 ^ c4 c.dwellW ∧
    (∀ t ∈ r.next, t < 2 ^ c.sw) ∧ (∀ t ∈ r.next, t < 2 ^ c4 c.sw) := by
  obtain ⟨-, ⟨h1, h2, h3⟩, h4⟩ := (row_wf_iff c r).1 h
  have hn := nstates_le_sw c
  have hp : ∀ w, 2 ^ w ≤ 2 ^ c4 w := fun w => Nat.pow_le_pow_right (by norm_num) (le_c4 w)
  exact ⟨h1.trans_le (hp _), h2.trans_le (hp _), h3.trans_le (hp _), fun t ht => (h4 t ht).trans_le hn,
    fun t ht => ((h4 t ht).trans_le hn).trans_le (hp _)⟩

theorem encodeRow_lt (c : Config) (r : Row) (h : r.WF c) : encodeRow c r < 2 ^ c.rowW := by
  obtain ⟨h1, h2, h3, -, h5⟩ := encodeRow_parts c r h
  have hl : r.next.length = 2 ^ c.k := ((row_wf_iff c r).1 h).1
  have h6 := packNext_lt (c4 c.sw) r.next h5
  rw [hl] at h6
  have step : ∀ x y a b, x < 2 ^ a → y < 2 ^ b → x + 2 ^ a * y < 2 ^ (a + b) := by
    intro x y a b hx hy
    rw [pow_add]
    calc x + 2 ^ a * y < 2 ^ a + 2 ^ a * y := by omega
      _ = 2 ^ a * (y + 1) := by ring
      _ ≤ 2 ^ a * 2 ^ b := Nat.mul_le_mul_left _ hy
  have := step _ _ _ _ h1 (step _ _ _ _ h2 (step _ _ _ _ h3 h6))
  unfold encodeRow Config.rowW Config.nextLo Config.nextW Config.ncodes
  convert this using 2
  ring

theorem bits_po (c : Config) (r : Row) (lo w : Nat) (hl : lo + w ≤ c4 c.pw) :
    bitsAt (encodeRow c r) lo w = bitsAt r.po lo w := by
  unfold encodeRow; rw [bitsAt_add_low _ _ _ _ _ hl]

theorem bits_so (c : Config) (r : Row) (h : r.WF c) (lo w : Nat) (hl : lo + w ≤ c4 c.sportW) :
    bitsAt (encodeRow c r) (c4 c.pw + lo) w = bitsAt r.so lo w := by
  unfold encodeRow
  rw [bitsAt_add_high _ _ _ _ _ (encodeRow_parts c r h).1 (by omega), Nat.add_sub_cancel_left, bitsAt_add_low _ _ _ _ _ hl]

theorem bits_dwell (c : Config) (r : Row) (h : r.WF c) (lo w : Nat) (hl : lo + w ≤ c4 c.dwellW) :
    bitsAt (encodeRow c r) (c4 c.pw + c4 c.sportW + lo) w = bitsAt r.dwell lo w := by
  obtain ⟨h1, h2, -⟩ := encodeRow_parts c r h
  unfold encodeRow
  rw [bitsAt_add_high _ _ _ _ _ h1 (by omega), bitsAt_add_high _ _ _ _ _ h2 (by omega),
    show c4 c.pw + c4 c.sportW + lo - c4 c.pw - c4 c.sportW = lo by omega, bitsAt_add_low _ _ _ _ _ hl]

theorem bits_next (c : Config) (r : Row) (h : r.WF c) (lo w : Nat) :
    bitsAt (encodeRow c r) (c4 c.pw + c4 c.sportW + c4 c.dwellW + lo) w = bitsAt (packNext (c4 c.sw) r.next) lo w := by
  obtain ⟨h1, h2, h3, -⟩ := encodeRow_parts c r h
  unfold encodeRow
  rw [bitsAt_add_high _ _ _ _ _ h1 (by omega), bitsAt_add_high _ _ _ _ _ h2 (by omega),
    bitsAt_add_high _ _ _ _ _ h3 (by omega),
    show c4 c.pw + c4 c.sportW + c4 c.dwellW + lo - c4 c.pw - c4 c.sportW - c4 c.dwellW = lo by omega]
  rfl

theorem nextEntries_encodeRow (c : Config) (r : Row) (h : r.WF c) : nextEntries c (encodeRow c r) = r.next := by
  have hl : r.next.length = c.ncodes := ((row_wf_iff c r).1 h).1
  obtain ⟨-, -, -, -, h5⟩ := encodeRow_parts c r h
  apply List.ext_getElem?
  intro i
  unfold nextEntries
  rw [List.getElem?_map]
  by_cases hi : i < c.ncodes
  · rw [List.getElem?_range hi]
    simp only [Option.map_some]
    have ht : r.next[i]? = some (r.next[i]'(by omega)) := List.getElem?_eq_getElem _
    rw [ht]
    congr 1
    unfold Config.nextLo Config.nextW
    rw [bits_next c r h, bitsAt_packNext _ _ le_rfl _ _ _ h5 ht, Nat.mod_eq_of_lt]
    exact h5 _ (List.getElem_mem _)
  · rw [List.getElem?_eq_none (by simpa using hi), List.getElem?_eq_none (by omega)]; rfl

theorem decodeRow_encodeRow (c : Config) (r : Row) (h : r.WF c) : decodeRow c (encodeRow c r) = .ok r := by
  obtain ⟨hl, ⟨h1, h2, h3⟩, h4⟩ := (row_wf_iff c r).1 h
  obtain ⟨g1, g2, g3, -, -⟩ := encodeRow_parts c r h
  rw [decodeRow_ok_iff]
  refine ⟨encodeRow_lt c r h, ?_, h1, ?_, h2, ?_, h3, (nextEntries_encodeRow c r h).symm, h4⟩
  · rw [bits_po c r _ _ (by omega), bitsAt_zero_of_lt _ _ g1]
  · have := bits_so c r h 0 (c4 c.sportW) (by omega)
    rw [Nat.add_zero] at this
    unfold Config.soLo; rw [this, bitsAt_zero_of_lt _ _ g2]
  · have := bits_dwell c r h 0 (c4 c.dwellW) (by omega)
    rw [Nat.add_zero] at this
    unfold Config.dwellLo; rw [this, bitsAt_zero_of_lt _ _ g3]

theorem bits_split (w a : Nat) : bitsAt w 0 a + 2 ^ a * (w / 2 ^ a) = w := by
  simp only [bitsAt, Nat.shiftRight_zero]; exact Nat.mod_add_div w (2 ^ a)

theorem bitsAt_div (w a lo d : Nat) : bitsAt (w / 2 ^ a) lo d = bitsAt w (a + lo) d := by
  simp only [bitsAt, Nat.shiftRight_eq_div_pow]; rw [pow_add, Nat.div_div_eq_div_mul]

/-! ### Bytes -/

theorem bytesOf_length : ∀ n w, (bytesOf n w).length = n
  | 0, _ => rfl
  | n+1, w => by simp [bytesOf, bytesOf_length n]

theorem ofBytes_bytesOf : ∀ n w, w < 256 ^ n → ofBytes (bytesOf n w) = w
  | 0, w, h => by simp at h; simp [bytesOf, ofBytes, h]
  | n+1, w, h => by
    have h' : w / 256 < 256 ^ n := by rw [Nat.div_lt_iff_lt_mul (by norm_num)]; rwa [pow_succ] at h
    simp only [bytesOf, ofBytes, ofBytes_bytesOf n _ h', BitVec.toNat_ofNat]
    omega

theorem bytesOf_get : ∀ n w j, j < n → ((bytesOf n w)[j]?).map BitVec.toNat = some (w / 256 ^ j % 256)
  | n+1, w, 0, _ => by simp [bytesOf]
  | n+1, w, j+1, h => by
    simp only [bytesOf, List.getElem?_cons_succ]
    rw [bytesOf_get n _ j (by omega), Nat.div_div_eq_div_mul, pow_succ, Nat.mul_comm]

end Sys2Proof.Laws
end

