-- ==== Sys2Proof/Laws/Table.lean ====
section
/-! SUPPORT. The table ROM, row reads and the check of a configuration. -/

namespace Sys2Proof.Laws

open Sys2Proof.Machine

/-! ### The ROM as a map -/

theorem read_write_same : ∀ (m : Memory) (s w : Nat), Memory.read (Memory.write m s w) s = some w
  | [], s, w => by simp [Memory.write, Memory.read]
  | (a, v) :: m, s, w => by
    unfold Memory.write
    split_ifs with h1 h2
    · simp [Memory.read]
    · simp [Memory.read]
    · simp [Memory.read, Ne.symm h2, read_write_same m s w]

theorem read_write_other : ∀ (m : Memory) (s w st : Nat), st ≠ s →
    Memory.read (Memory.write m s w) st = Memory.read m st
  | [], s, w, st, h => by simp [Memory.write, Memory.read, Ne.symm h]
  | (a, v) :: m, s, w, st, h => by
    unfold Memory.write
    split_ifs with h1 h2
    · simp [Memory.read, Ne.symm h]
    · subst h2; simp [Memory.read, Ne.symm h]
    · simp [Memory.read, read_write_other m s w st h]

/-- Every listed row number is at least `lo` and they rise strictly. -/
theorem wf_cons (a v : Nat) (m : Memory) : Memory.wf ((a, v) :: m) = true ↔
    (∀ p, m.head? = some p → a < p.1) ∧ Memory.wf m = true := by
  cases m with
  | nil => simp [Memory.wf]
  | cons p m => obtain ⟨b, w⟩ := p; simp [Memory.wf]

/-- Writing a row keeps the canonical form. -/
theorem write_wf : ∀ (m : Memory) (s w : Nat), Memory.wf m = true → Memory.wf (Memory.write m s w) = true
  | [], s, w, _ => rfl
  | (a, v) :: m, s, w, h => by
    unfold Memory.write
    split_ifs with h1 h2
    · rw [wf_cons]; exact ⟨by simpa using h1, h⟩
    · subst h2; rw [wf_cons] at h ⊢; exact h
    · rw [wf_cons] at h ⊢
      refine ⟨fun p hp => ?_, write_wf m s w h.2⟩
      cases m with
      | nil => simp [Memory.write] at hp; subst hp; simp; omega
      | cons q m =>
        obtain ⟨b, u⟩ := q
        have hb := h.1 (b, u) rfl
        unfold Memory.write at hp
        split_ifs at hp with h3 h4 <;> simp at hp <;> subst hp <;> simp at hb ⊢ <;> omega

/-- Filling the missing rows keeps the canonical form. -/
theorem fill_wf : ∀ (n w : Nat) (m : Memory), Memory.wf m = true → Memory.wf (Memory.fill n w m) = true
  | 0, _, _, h => h
  | n + 1, w, m, h => by
    unfold Memory.fill
    split
    · exact fill_wf n w m h
    · exact fill_wf n w _ (write_wf m n w h)

/-- Building a ROM from rows gives the canonical form. -/
theorem romFrom_wf : ∀ (s : Nat) (ws : List Nat), Memory.wf (romFrom s ws) = true
  | _, [] => rfl
  | s, w :: ws => by
    rw [romFrom, wf_cons]
    refine ⟨fun p hp => ?_, romFrom_wf (s + 1) ws⟩
    cases ws with
    | nil => simp [romFrom] at hp
    | cons x ws => simp [romFrom] at hp; subst hp; simp

theorem read_romFrom : ∀ (s : Nat) (ws : List Nat) (st : Nat), Memory.read (romFrom s ws) (s + st) = ws[st]?
  | _, [], _ => by simp [romFrom, Memory.read]
  | s, w :: ws, 0 => by simp [romFrom, Memory.read]
  | s, w :: ws, st + 1 => by
    rw [romFrom, Memory.read, if_neg (by omega), List.getElem?_cons_succ, ← read_romFrom (s + 1) ws st]
    congr 1; omega

/-! ### Row reads -/

/-- What a row read that succeeds says. -/
theorem rowAt_ok_iff (c : Config) (st : Nat) (r : Row) : rowAt c st = .ok r ↔
    st < c.nstates ∧ ∃ w, Memory.read c.rom st = some w ∧ decodeRow c w = .ok r := by
  unfold rowAt
  split_ifs with h
  · cases hm : Memory.read c.rom st with
    | none => simp
    | some w => cases hd : decodeRow c w <;> simp [h, hd]
  · simp [h]

theorem rowAt_wf {c : Config} {st : Nat} {r : Row} (h : rowAt c st = .ok r) : r.WF c := by
  obtain ⟨-, w, -, hd⟩ := (rowAt_ok_iff c st r).1 h
  exact decodeRow_wf c w r hd

theorem rowAt_lt {c : Config} {st : Nat} {r : Row} (h : rowAt c st = .ok r) : st < c.nstates :=
  ((rowAt_ok_iff c st r).1 h).1

/-- Below NSTATES a failing row read is TableInvalid. -/
theorem rowAt_error {c : Config} {st : Nat} {f : Fault} (hs : st < c.nstates) (h : rowAt c st = .error f) :
    ∃ cond row, f = .tableInvalid cond row := by
  unfold rowAt at h
  rw [if_pos hs] at h
  split at h
  · cases h; exact ⟨_, _, rfl⟩
  · split at h <;> cases h; exact ⟨_, _, rfl⟩

/-- A well-formed row answers every input code, below NSTATES. -/
theorem targetOf_wf {c : Config} {st code : Nat} {r : Row} (h : r.WF c) (hc : code < 2 ^ c.k) :
    ∃ t, r.next[code]? = some t ∧ t < c.nstates ∧ targetOf c st r code = .ok t := by
  obtain ⟨hl, -, ht⟩ := (row_wf_iff c r).1 h
  have hi : code < r.next.length := by rw [hl]; exact hc
  refine ⟨r.next[code], List.getElem?_eq_getElem hi, ht _ (List.getElem_mem hi), ?_⟩
  unfold targetOf Config.ncodes
  rw [if_pos hc, List.getElem?_eq_getElem hi]

/-- `targetOf` of a well-formed row never leaves the table. -/
theorem targetOf_lt {c : Config} {st code t : Nat} {r : Row} (h : r.WF c) (ht : targetOf c st r code = .ok t) :
    code < 2 ^ c.k ∧ r.next[code]? = some t ∧ t < c.nstates := by
  unfold targetOf Config.ncodes at ht
  split_ifs at ht with hc
  split at ht <;> cases ht
  rename_i heq
  exact ⟨hc, heq, ((row_wf_iff c r).1 h).2.2 _ (List.mem_of_getElem? heq)⟩

theorem stepLookup_of_row {c : Config} {st : Nat} {r : Row} (h : rowAt c st = .ok r) (code : Nat) :
    stepLookup c st code = targetOf c st r code := by
  unfold stepLookup targetOf
  split_ifs with hc
  · rw [h]
  · rfl

/-! ### The check of a configuration -/

theorem rowsFailure_none (c : Config) : ∀ n, rowsFailure c n = none ↔ ∀ st, st < n → ∃ r, rowAt c st = .ok r
  | 0 => by simp [rowsFailure]
  | n + 1 => by
    unfold rowsFailure
    have ih := rowsFailure_none c n
    cases hr : rowsFailure c n with
    | some f =>
      simp only [reduceCtorEq, false_iff]
      intro h
      have := ih.2 fun st hst => h st (by omega)
      rw [hr] at this; cases this
    | none =>
      have h0 := ih.1 hr
      cases ha : rowAt c n with
      | error f =>
        simp only [reduceCtorEq, false_iff]
        intro h
        obtain ⟨r, hr⟩ := h n (by omega)
        rw [ha] at hr; cases hr
      | ok r =>
        simp only [true_iff]
        intro st hst
        rcases Nat.lt_succ_iff_lt_or_eq.1 hst with h | rfl
        · exact h0 st h
        · exact ⟨r, ha⟩

theorem rowsFailure_some (c : Config) : ∀ n f, n ≤ c.nstates → rowsFailure c n = some f →
    ∃ cond row, f = .tableInvalid cond row
  | n + 1, f, hn, h => by
    unfold rowsFailure at h
    split at h
    · cases h; rename_i heq; exact rowsFailure_some c n _ (by omega) heq
    · split at h <;> cases h
      rename_i heq
      exact rowAt_error (by omega) heq

theorem checked_valid (op : State → Host.Outcome State Fault Refusal) {s : State} (h : Valid s.cfg) : checked op s = op s := by
  unfold checked
  rw [h]

theorem checked_invalid (op : State → Host.Outcome State Fault Refusal) {s : State} {f : Fault}
    (h : configFailure s.cfg = some f) : checked op s = .fault f := by
  unfold checked
  rw [h]

/-- What an operation under the check that answers a next state says. -/
theorem checked_next {op : State → Host.Outcome State Fault Refusal} {s t : State} (h : checked op s = .next t) :
    Valid s.cfg ∧ op s = .next t := by
  cases hf : configFailure s.cfg with
  | none => exact ⟨hf, (checked_valid op hf).symm.trans h⟩
  | some f => rw [checked_invalid op hf] at h; cases h

/-- A configuration that is accepted is the one given, and it is valid. -/
theorem accept_ok {c built : Config} (h : accept c = .ok built) : built = c ∧ Valid c := by
  unfold accept at h
  split at h <;> cases h
  exact ⟨rfl, by assumption⟩

/-- A valid configuration: what the check establishes. -/
theorem valid_iff (c : Config) : Valid c ↔
    paramsOk c = true ∧ (1 ≤ c.nstates ∧ c.init < c.nstates) ∧ (1 ≤ c.unitTicks ∧ c.unitTicks ≤ 2 ^ 24) ∧
    ∀ st, st < c.nstates → ∃ r, rowAt c st = .ok r := by
  unfold Valid configFailure
  by_cases h1 : paramsOk c = true
  · by_cases h2 : 1 ≤ c.nstates ∧ c.init < c.nstates
    · by_cases h3 : TicksInRange c.unitTicks
      · rw [if_neg (not_not_intro h1), if_neg (not_not_intro h2), if_neg (not_not_intro h3), rowsFailure_none]
        exact ⟨fun h => ⟨h1, h2, h3, h⟩, fun h => h.2.2.2⟩
      · rw [if_neg (not_not_intro h1), if_neg (not_not_intro h2), if_pos h3]
        exact ⟨fun h => (by cases h), fun h => absurd h.2.2.1 h3⟩
    · rw [if_neg (not_not_intro h1), if_pos h2]
      exact ⟨fun h => (by cases h), fun h => absurd h.2.1 h2⟩
  · rw [if_pos h1]
    exact ⟨fun h => (by cases h), fun h => absurd h.1 h1⟩

theorem valid_row {c : Config} (h : Valid c) {st : Nat} (hs : st < c.nstates) : ∃ r, rowAt c st = .ok r :=
  ((valid_iff c).1 h).2.2.2 st hs

theorem valid_ticks {c : Config} (h : Valid c) : TicksInRange c.unitTicks := ((valid_iff c).1 h).2.2.1

theorem valid_init {c : Config} (h : Valid c) : c.init < c.nstates := ((valid_iff c).1 h).2.1.2

theorem le_foldr_max {v : Nat} : ∀ {l : List Nat}, v ∈ l → v ≤ l.foldr max 0
  | a :: l, h => by
    rw [List.foldr_cons]
    rcases List.mem_cons.1 h with rfl | h
    · exact le_max_left _ _
    · exact (le_foldr_max h).trans (le_max_right _ _)

/-- No iteration is longer than the longest gap. -/
theorem iteration_le_longestGap {c : Config} {st : Nat} {r : Row} (h : rowAt c st = .ok r) :
    r.dwell * c.unitTicks + 3 ≤ longestGap c := by
  refine Nat.add_le_add_right (le_foldr_max (List.mem_map.2 ⟨st, List.mem_range.2 (rowAt_lt h), ?_⟩)) 3
  rw [h]

/-- Every failing check of a configuration is TableInvalid. -/
theorem configFailure_some {c : Config} {f : Fault} (h : configFailure c = some f) :
    ∃ cond row, f = .tableInvalid cond row := by
  unfold configFailure at h
  by_cases h1 : paramsOk c = true
  · rw [if_neg (not_not_intro h1)] at h
    by_cases h2 : 1 ≤ c.nstates ∧ c.init < c.nstates
    · rw [if_neg (not_not_intro h2)] at h
      by_cases h3 : TicksInRange c.unitTicks
      · rw [if_neg (not_not_intro h3)] at h
        exact rowsFailure_some c _ f le_rfl h
      · rw [if_pos h3] at h; cases h; exact ⟨_, _, rfl⟩
    · rw [if_pos h2] at h; cases h; exact ⟨_, _, rfl⟩
  · rw [if_pos h1] at h; cases h; exact ⟨_, _, rfl⟩

end Sys2Proof.Laws
end

