-- ==== Sys2Proof/Laws/State.lean ====
section
/-! SUPPORT. What each named update of the state leaves in each field, true by rfl, so that no proof unfolds a record
update. -/

namespace Sys2Proof.Laws

open Sys2Proof.Machine

variable (s : State)

/-! ### enterReset -/

@[simp] theorem enterReset_cfg : (s.enterReset).cfg = s.cfg := rfl
@[simp] theorem enterReset_cur : (s.enterReset).cur = s.cfg.init := rfl
@[simp] theorem enterReset_ph : (s.enterReset).ph = .out := rfl
@[simp] theorem enterReset_inp : (s.enterReset).inp = 0 := rfl
@[simp] theorem enterReset_ucnt : (s.enterReset).ucnt = 0 := rfl
@[simp] theorem enterReset_reload : (s.enterReset).reload = 0 := rfl
@[simp] theorem enterReset_cnt : (s.enterReset).cnt = 0 := rfl
@[simp] theorem enterReset_pout : (s.enterReset).pout = s.pout := rfl
@[simp] theorem enterReset_sport : (s.enterReset).sport = s.sport := rfl
@[simp] theorem enterReset_env : (s.enterReset).env = s.env := rfl
@[simp] theorem enterReset_tick : (s.enterReset).tick = 0 := rfl
@[simp] theorem enterReset_edges : (s.enterReset).edges = s.edges + 1 := rfl
@[simp] theorem enterReset_history : (s.enterReset).history = s.history := rfl
@[simp] theorem enterReset_ret : (s.enterReset).ret = s.ret := rfl
@[simp] theorem enterReset_draws : (s.enterReset).draws = s.draws := rfl

/-! ### advance -/

@[simp] theorem advance_cfg : (s.advance).cfg = s.cfg := rfl
@[simp] theorem advance_cur : (s.advance).cur = s.cur := rfl
@[simp] theorem advance_ph : (s.advance).ph = s.ph := rfl
@[simp] theorem advance_inp : (s.advance).inp = s.inp := rfl
@[simp] theorem advance_ucnt : (s.advance).ucnt = s.ucnt := rfl
@[simp] theorem advance_reload : (s.advance).reload = s.reload := rfl
@[simp] theorem advance_cnt : (s.advance).cnt = s.cnt := rfl
@[simp] theorem advance_pout : (s.advance).pout = s.pout := rfl
@[simp] theorem advance_sport : (s.advance).sport = s.sport := rfl
@[simp] theorem advance_env : (s.advance).env = s.env := rfl
@[simp] theorem advance_tick : (s.advance).tick = s.tick + 1 := rfl
@[simp] theorem advance_edges : (s.advance).edges = s.edges + 1 := rfl
@[simp] theorem advance_history : (s.advance).history = s.history := rfl
@[simp] theorem advance_ret : (s.advance).ret = s.ret := rfl
@[simp] theorem advance_draws : (s.advance).draws = s.draws := rfl

/-! ### after -/

@[simp] theorem after_cfg (n : Nat) : (after n s).cfg = s.cfg := rfl
@[simp] theorem after_cur (n : Nat) : (after n s).cur = s.cur := rfl
@[simp] theorem after_ph (n : Nat) : (after n s).ph = s.ph := rfl
@[simp] theorem after_inp (n : Nat) : (after n s).inp = s.inp := rfl
@[simp] theorem after_ucnt (n : Nat) : (after n s).ucnt = s.ucnt := rfl
@[simp] theorem after_reload (n : Nat) : (after n s).reload = s.reload := rfl
@[simp] theorem after_cnt (n : Nat) : (after n s).cnt = s.cnt := rfl
@[simp] theorem after_pout (n : Nat) : (after n s).pout = s.pout := rfl
@[simp] theorem after_sport (n : Nat) : (after n s).sport = s.sport := rfl
@[simp] theorem after_env (n : Nat) : (after n s).env = s.env := rfl
@[simp] theorem after_tick (n : Nat) : (after n s).tick = s.tick + n := rfl
@[simp] theorem after_edges (n : Nat) : (after n s).edges = s.edges + n := rfl
@[simp] theorem after_history (n : Nat) : (after n s).history = s.history := rfl
@[simp] theorem after_ret (n : Nat) : (after n s).ret = s.ret := rfl
@[simp] theorem after_draws (n : Nat) : (after n s).draws = s.draws := rfl

/-! ### drawUnits -/

@[simp] theorem drawUnits_cfg : (drawUnits s).cfg = s.cfg := rfl
@[simp] theorem drawUnits_cur : (drawUnits s).cur = s.cur := rfl
@[simp] theorem drawUnits_ph : (drawUnits s).ph = s.ph := rfl
@[simp] theorem drawUnits_inp : (drawUnits s).inp = s.inp := rfl
@[simp] theorem drawUnits_reload : (drawUnits s).reload = s.reload := rfl
@[simp] theorem drawUnits_cnt : (drawUnits s).cnt = s.cnt := rfl
@[simp] theorem drawUnits_pout : (drawUnits s).pout = s.pout := rfl
@[simp] theorem drawUnits_sport : (drawUnits s).sport = s.sport := rfl
@[simp] theorem drawUnits_env : (drawUnits s).env = s.env := rfl
@[simp] theorem drawUnits_tick : (drawUnits s).tick = s.tick := rfl
@[simp] theorem drawUnits_edges : (drawUnits s).edges = s.edges := rfl
@[simp] theorem drawUnits_history : (drawUnits s).history = s.history := rfl
@[simp] theorem drawUnits_ret : (drawUnits s).ret = s.ret := rfl
@[simp] theorem drawUnits_ucnt : (drawUnits s).ucnt = trunc s.cfg.dwellW (Config.freeUnits s.draws) := rfl
@[simp] theorem drawUnits_draws : (drawUnits s).draws = s.draws + 1 := rfl

/-! ### timerTick -/

@[simp] theorem timerTick_cfg : (timerTick s).cfg = s.cfg := rfl
@[simp] theorem timerTick_cur : (timerTick s).cur = s.cur := rfl
@[simp] theorem timerTick_ph : (timerTick s).ph = s.ph := rfl
@[simp] theorem timerTick_inp : (timerTick s).inp = s.inp := rfl
@[simp] theorem timerTick_ucnt : (timerTick s).ucnt = s.ucnt := rfl
@[simp] theorem timerTick_reload : (timerTick s).reload = s.reload := rfl
@[simp] theorem timerTick_cnt : (timerTick s).cnt = nextCount s := rfl
@[simp] theorem timerTick_pout : (timerTick s).pout = s.pout := rfl
@[simp] theorem timerTick_sport : (timerTick s).sport = s.sport := rfl
@[simp] theorem timerTick_env : (timerTick s).env = s.env := rfl
@[simp] theorem timerTick_tick : (timerTick s).tick = s.tick := rfl
@[simp] theorem timerTick_edges : (timerTick s).edges = s.edges := rfl
@[simp] theorem timerTick_history : (timerTick s).history = s.history := rfl
@[simp] theorem timerTick_ret : (timerTick s).ret = s.ret := rfl
@[simp] theorem timerTick_draws : (timerTick s).draws = s.draws := rfl

/-! ### driveOutputs -/

@[simp] theorem driveOutputs_cfg (po so : Nat) : (driveOutputs po so s).cfg = s.cfg := rfl
@[simp] theorem driveOutputs_cur (po so : Nat) : (driveOutputs po so s).cur = s.cur := rfl
@[simp] theorem driveOutputs_ph (po so : Nat) : (driveOutputs po so s).ph = s.ph := rfl
@[simp] theorem driveOutputs_inp (po so : Nat) : (driveOutputs po so s).inp = s.inp := rfl
@[simp] theorem driveOutputs_ucnt (po so : Nat) : (driveOutputs po so s).ucnt = s.ucnt := rfl
@[simp] theorem driveOutputs_reload (po so : Nat) : (driveOutputs po so s).reload = s.reload := rfl
@[simp] theorem driveOutputs_cnt (po so : Nat) : (driveOutputs po so s).cnt = s.cnt := rfl
@[simp] theorem driveOutputs_pout (po so : Nat) : (driveOutputs po so s).pout = maskedWrite s.cfg.pw s.pout po (ones s.cfg.pw) := rfl
@[simp] theorem driveOutputs_sport (po so : Nat) : (driveOutputs po so s).sport = maskedWrite s.cfg.sportW s.sport so s.cfg.smask := rfl
@[simp] theorem driveOutputs_env (po so : Nat) : (driveOutputs po so s).env = s.env := rfl
@[simp] theorem driveOutputs_tick (po so : Nat) : (driveOutputs po so s).tick = s.tick := rfl
@[simp] theorem driveOutputs_edges (po so : Nat) : (driveOutputs po so s).edges = s.edges := rfl
@[simp] theorem driveOutputs_history (po so : Nat) : (driveOutputs po so s).history = s.history ++ [.outWrite (s.tick + 1) po (so &&& s.cfg.smask)] := rfl
@[simp] theorem driveOutputs_ret (po so : Nat) : (driveOutputs po so s).ret = s.ret := rfl
@[simp] theorem driveOutputs_draws (po so : Nat) : (driveOutputs po so s).draws = s.draws := rfl

/-! ### latchInput -/

@[simp] theorem latchInput_cfg : (latchInput s).cfg = s.cfg := rfl
@[simp] theorem latchInput_cur : (latchInput s).cur = s.cur := rfl
@[simp] theorem latchInput_ph : (latchInput s).ph = s.ph := rfl
@[simp] theorem latchInput_inp : (latchInput s).inp = codeOf s.cfg (readSens s) := rfl
@[simp] theorem latchInput_ucnt : (latchInput s).ucnt = s.ucnt := rfl
@[simp] theorem latchInput_reload : (latchInput s).reload = s.reload := rfl
@[simp] theorem latchInput_cnt : (latchInput s).cnt = s.cnt := rfl
@[simp] theorem latchInput_pout : (latchInput s).pout = s.pout := rfl
@[simp] theorem latchInput_sport : (latchInput s).sport = s.sport := rfl
@[simp] theorem latchInput_env : (latchInput s).env = s.env := rfl
@[simp] theorem latchInput_tick : (latchInput s).tick = s.tick := rfl
@[simp] theorem latchInput_edges : (latchInput s).edges = s.edges := rfl
@[simp] theorem latchInput_history : (latchInput s).history = s.history ++ [.sample (s.tick + 1) (readSens s) (codeOf s.cfg (readSens s))] := rfl
@[simp] theorem latchInput_ret : (latchInput s).ret = s.ret := rfl
@[simp] theorem latchInput_draws : (latchInput s).draws = s.draws := rfl

/-! ### moveTo -/

@[simp] theorem moveTo_cfg (target : Nat) : (moveTo target s).cfg = s.cfg := rfl
@[simp] theorem moveTo_cur (target : Nat) : (moveTo target s).cur = target := rfl
@[simp] theorem moveTo_ph (target : Nat) : (moveTo target s).ph = s.ph := rfl
@[simp] theorem moveTo_inp (target : Nat) : (moveTo target s).inp = s.inp := rfl
@[simp] theorem moveTo_ucnt (target : Nat) : (moveTo target s).ucnt = s.ucnt := rfl
@[simp] theorem moveTo_reload (target : Nat) : (moveTo target s).reload = s.reload := rfl
@[simp] theorem moveTo_cnt (target : Nat) : (moveTo target s).cnt = s.cnt := rfl
@[simp] theorem moveTo_pout (target : Nat) : (moveTo target s).pout = s.pout := rfl
@[simp] theorem moveTo_sport (target : Nat) : (moveTo target s).sport = s.sport := rfl
@[simp] theorem moveTo_env (target : Nat) : (moveTo target s).env = s.env := rfl
@[simp] theorem moveTo_tick (target : Nat) : (moveTo target s).tick = s.tick := rfl
@[simp] theorem moveTo_edges (target : Nat) : (moveTo target s).edges = s.edges := rfl
@[simp] theorem moveTo_history (target : Nat) : (moveTo target s).history = s.history ++ [.transition (s.tick + 1) s.cur target] := rfl
@[simp] theorem moveTo_ret (target : Nat) : (moveTo target s).ret = s.ret := rfl
@[simp] theorem moveTo_draws (target : Nat) : (moveTo target s).draws = s.draws := rfl

/-! ### withTable -/

@[simp] theorem withTable_cfg (m : Memory) : (s.withTable m).cfg = { s.cfg with rom := m } := rfl
@[simp] theorem withTable_cur (m : Memory) : (s.withTable m).cur = s.cur := rfl
@[simp] theorem withTable_ph (m : Memory) : (s.withTable m).ph = s.ph := rfl
@[simp] theorem withTable_inp (m : Memory) : (s.withTable m).inp = s.inp := rfl
@[simp] theorem withTable_ucnt (m : Memory) : (s.withTable m).ucnt = s.ucnt := rfl
@[simp] theorem withTable_reload (m : Memory) : (s.withTable m).reload = s.reload := rfl
@[simp] theorem withTable_cnt (m : Memory) : (s.withTable m).cnt = s.cnt := rfl
@[simp] theorem withTable_pout (m : Memory) : (s.withTable m).pout = s.pout := rfl
@[simp] theorem withTable_sport (m : Memory) : (s.withTable m).sport = s.sport := rfl
@[simp] theorem withTable_env (m : Memory) : (s.withTable m).env = s.env := rfl
@[simp] theorem withTable_tick (m : Memory) : (s.withTable m).tick = s.tick := rfl
@[simp] theorem withTable_edges (m : Memory) : (s.withTable m).edges = s.edges := rfl
@[simp] theorem withTable_history (m : Memory) : (s.withTable m).history = s.history := rfl
@[simp] theorem withTable_ret (m : Memory) : (s.withTable m).ret = s.ret := rfl
@[simp] theorem withTable_draws (m : Memory) : (s.withTable m).draws = s.draws := rfl

/-! ### setPh -/

@[simp] theorem setPh_cfg (p : Phase) : (State.setPh p s).cfg = s.cfg := rfl
@[simp] theorem setPh_cur (p : Phase) : (State.setPh p s).cur = s.cur := rfl
@[simp] theorem setPh_ph (p : Phase) : (State.setPh p s).ph = p := rfl
@[simp] theorem setPh_inp (p : Phase) : (State.setPh p s).inp = s.inp := rfl
@[simp] theorem setPh_ucnt (p : Phase) : (State.setPh p s).ucnt = s.ucnt := rfl
@[simp] theorem setPh_reload (p : Phase) : (State.setPh p s).reload = s.reload := rfl
@[simp] theorem setPh_cnt (p : Phase) : (State.setPh p s).cnt = s.cnt := rfl
@[simp] theorem setPh_pout (p : Phase) : (State.setPh p s).pout = s.pout := rfl
@[simp] theorem setPh_sport (p : Phase) : (State.setPh p s).sport = s.sport := rfl
@[simp] theorem setPh_env (p : Phase) : (State.setPh p s).env = s.env := rfl
@[simp] theorem setPh_tick (p : Phase) : (State.setPh p s).tick = s.tick := rfl
@[simp] theorem setPh_edges (p : Phase) : (State.setPh p s).edges = s.edges := rfl
@[simp] theorem setPh_history (p : Phase) : (State.setPh p s).history = s.history := rfl
@[simp] theorem setPh_ret (p : Phase) : (State.setPh p s).ret = s.ret := rfl
@[simp] theorem setPh_draws (p : Phase) : (State.setPh p s).draws = s.draws := rfl

/-! ### setUcnt -/

@[simp] theorem setUcnt_cfg (n : Nat) : (State.setUcnt n s).cfg = s.cfg := rfl
@[simp] theorem setUcnt_cur (n : Nat) : (State.setUcnt n s).cur = s.cur := rfl
@[simp] theorem setUcnt_ph (n : Nat) : (State.setUcnt n s).ph = s.ph := rfl
@[simp] theorem setUcnt_inp (n : Nat) : (State.setUcnt n s).inp = s.inp := rfl
@[simp] theorem setUcnt_ucnt (n : Nat) : (State.setUcnt n s).ucnt = n := rfl
@[simp] theorem setUcnt_reload (n : Nat) : (State.setUcnt n s).reload = s.reload := rfl
@[simp] theorem setUcnt_cnt (n : Nat) : (State.setUcnt n s).cnt = s.cnt := rfl
@[simp] theorem setUcnt_pout (n : Nat) : (State.setUcnt n s).pout = s.pout := rfl
@[simp] theorem setUcnt_sport (n : Nat) : (State.setUcnt n s).sport = s.sport := rfl
@[simp] theorem setUcnt_env (n : Nat) : (State.setUcnt n s).env = s.env := rfl
@[simp] theorem setUcnt_tick (n : Nat) : (State.setUcnt n s).tick = s.tick := rfl
@[simp] theorem setUcnt_edges (n : Nat) : (State.setUcnt n s).edges = s.edges := rfl
@[simp] theorem setUcnt_history (n : Nat) : (State.setUcnt n s).history = s.history := rfl
@[simp] theorem setUcnt_ret (n : Nat) : (State.setUcnt n s).ret = s.ret := rfl
@[simp] theorem setUcnt_draws (n : Nat) : (State.setUcnt n s).draws = s.draws := rfl

/-! ### record -/

@[simp] theorem record_cfg (e : Event) : (State.record e s).cfg = s.cfg := rfl
@[simp] theorem record_cur (e : Event) : (State.record e s).cur = s.cur := rfl
@[simp] theorem record_ph (e : Event) : (State.record e s).ph = s.ph := rfl
@[simp] theorem record_inp (e : Event) : (State.record e s).inp = s.inp := rfl
@[simp] theorem record_ucnt (e : Event) : (State.record e s).ucnt = s.ucnt := rfl
@[simp] theorem record_reload (e : Event) : (State.record e s).reload = s.reload := rfl
@[simp] theorem record_cnt (e : Event) : (State.record e s).cnt = s.cnt := rfl
@[simp] theorem record_pout (e : Event) : (State.record e s).pout = s.pout := rfl
@[simp] theorem record_sport (e : Event) : (State.record e s).sport = s.sport := rfl
@[simp] theorem record_env (e : Event) : (State.record e s).env = s.env := rfl
@[simp] theorem record_tick (e : Event) : (State.record e s).tick = s.tick := rfl
@[simp] theorem record_edges (e : Event) : (State.record e s).edges = s.edges := rfl
@[simp] theorem record_history (e : Event) : (State.record e s).history = s.history ++ [e] := rfl
@[simp] theorem record_ret (e : Event) : (State.record e s).ret = s.ret := rfl
@[simp] theorem record_draws (e : Event) : (State.record e s).draws = s.draws := rfl

end Sys2Proof.Laws
end

