-- ==== Sys2Proof/Laws/Timer.lean ====
section
/-! SUPPORT. Clock edges, the countdown and the loops of the waits: what each shared operation comes to. -/

namespace Sys2Proof.Laws

open Sys2Proof.Machine

/-! ### Edges -/

theorem onEdge_quiet {op : State → Except Fault State} {s t : State} (hr : rstNow s = false) (h : op s = .ok t) :
    onEdge op s = .on t.advance := by
  simp [onEdge, hr, h]

theorem onEdge_fault {op : State → Except Fault State} {s : State} {f : Fault} (hr : rstNow s = false)
    (h : op s = .error f) : onEdge op s = .fault f := by
  simp [onEdge, hr, h]

theorem onEdge_reset (op : State → Except Fault State) {s : State} (hr : rstNow s = true) :
    onEdge op s = .reset s.enterReset := by
  simp [onEdge, hr]

/-- The inversion lemma of an edge: reset, the operation's result one tick later, or its fault. -/
theorem onEdge_next {op : State → Except Fault State} {s t : State} (h : (onEdge op s).outcome = .next t) :
    (rstNow s = true ∧ t = s.enterReset) ∨ (rstNow s = false ∧ ∃ u, op s = .ok u ∧ t = u.advance) := by
  cases hr : rstNow s with
  | true => rw [onEdge_reset op hr] at h; cases h; exact .inl ⟨rfl, rfl⟩
  | false =>
    cases ho : op s with
    | error f => rw [onEdge_fault hr ho] at h; cases h
    | ok u => rw [onEdge_quiet hr ho] at h; cases h; exact .inr ⟨rfl, u, rfl, rfl⟩

theorem advance_eq_after (s : State) : s.advance = after 1 s := rfl

theorem after_zero (s : State) : after 0 s = s := rfl

theorem after_after (m n : Nat) (s : State) : after m (after n s) = after (n + m) s := by
  simp [after, Nat.add_assoc]

theorem quietFor_now {s : State} {n : Nat} (h : QuietFor s (n + 1)) : rstNow s = false := h 0 (by omega)

/-- Quiet edges after the first are quiet for any state one edge on with the same environment. -/
theorem quietFor_next {s t : State} {n : Nat} (h : QuietFor s (n + 1)) (he : t.env = s.env)
    (ht : t.edges = s.edges + 1) : QuietFor t n := by
  intro i hi
  have := h (i + 1) (by omega)
  rw [he, ht]
  rw [show s.edges + 1 + 1 + i = s.edges + 1 + (i + 1) by omega]
  exact this

theorem quietFor_mono {s : State} {m n : Nat} (h : QuietFor s n) (hm : m ≤ n) : QuietFor s m :=
  fun i hi => h i (by omega)

theorem quietFor_later {s t : State} {k n : Nat} (h : QuietFor s (k + n)) (he : t.env = s.env)
    (ht : t.edges = s.edges + k) : QuietFor t n := by
  intro i hi
  have := h (k + i) (by omega)
  rw [he, ht]
  rw [show s.edges + k + 1 + i = s.edges + 1 + (k + i) by omega]
  exact this

/-! ### The countdown -/

theorem nextCount_of_zero {s : State} (h : s.cnt = 0) : nextCount s = s.reload := by simp [nextCount, h]

theorem nextCount_toNat_of_ne {s : State} (h : s.cnt ≠ 0) : (nextCount s).toNat + 1 = s.cnt.toNat := by
  have h1 : s.cnt.toNat ≠ 0 := fun e => h (BitVec.eq_of_toNat_eq (by simpa using e))
  have h2 := s.cnt.isLt
  rw [nextCount, if_neg h, BitVec.toNat_sub]
  simp
  omega

theorem cnt_ne_zero_iff (x : TimerWord) : x ≠ 0 ↔ x.toNat ≠ 0 :=
  not_congr ⟨fun h => by simp [h], fun h => BitVec.eq_of_toNat_eq (by simpa using h)⟩

theorem nextCount_le {s : State} (h : s.cnt ≤ s.reload) : nextCount s ≤ s.reload := by
  by_cases hc : s.cnt = 0
  · rw [nextCount_of_zero hc]; exact BitVec.le_refl _
  · have := nextCount_toNat_of_ne hc
    rw [BitVec.le_def] at h ⊢; omega

theorem expire_iff (s : State) : expire false s = true ↔ nextCount s = 0 := by simp [expire]

theorem expire_false_iff (s : State) : expire false s = false ↔ nextCount s ≠ 0 := by simp [expire]

/-- Ticks until the next `expire`. -/
def remaining (s : State) : Nat := if s.cnt = 0 then s.reload.toNat + 1 else s.cnt.toNat

theorem remaining_pos (s : State) : 1 ≤ remaining s := by
  unfold remaining
  split_ifs with h
  · omega
  · have := (cnt_ne_zero_iff _).1 h; omega

theorem remaining_le {s : State} (h : s.cnt ≤ s.reload) : remaining s ≤ s.reload.toNat + 1 := by
  unfold remaining
  rw [BitVec.le_def] at h
  split_ifs <;> omega

/-- `expire` is the last remaining tick. -/
theorem nextCount_eq_zero_iff (s : State) : nextCount s = 0 ↔ remaining s = 1 := by
  unfold remaining
  by_cases h : s.cnt = 0
  · rw [nextCount_of_zero h, if_pos h]
    exact ⟨fun e => by simp [e], fun e => BitVec.eq_of_toNat_eq (by simp at e ⊢; exact e)⟩
  · rw [if_neg h]
    have h1 := nextCount_toNat_of_ne h
    exact ⟨fun e => by rw [e] at h1; simpa using h1.symm,
      fun e => BitVec.eq_of_toNat_eq (by simp at h1 ⊢; omega)⟩

/-- A tick before the last leaves one less. -/
theorem remaining_timerTick {s : State} (h : remaining s ≠ 1) : remaining (timerTick s) + 1 = remaining s := by
  have hn : nextCount s ≠ 0 := fun e => h ((nextCount_eq_zero_iff s).1 e)
  have : remaining (timerTick s) = (nextCount s).toNat := by rw [remaining, timerTick_cnt, if_neg hn]
  rw [this]
  by_cases hc : s.cnt = 0
  · rw [nextCount_of_zero hc]; simp [remaining, hc]
  · rw [nextCount_toNat_of_ne hc, remaining, if_neg hc]

/-- The whole count: after `n` ticks it stands at `cnt - n` modulo RELOAD + 1. -/
theorem timerTick_iterate_cnt (s : State) (h : s.cnt ≤ s.reload) : ∀ n,
    (timerTick^[n] s).reload = s.reload ∧
    (timerTick^[n] s).cnt.toNat = (s.cnt.toNat + n * s.reload.toNat) % (s.reload.toNat + 1) := by
  intro n
  induction n with
  | zero =>
    rw [BitVec.le_def] at h
    simp only [Function.iterate_zero, id, Nat.zero_mul, Nat.add_zero, true_and]
    exact (Nat.mod_eq_of_lt (by omega)).symm
  | succ n ih =>
    obtain ⟨hr, hc⟩ := ih
    rw [Function.iterate_succ_apply']
    refine ⟨hr, ?_⟩
    have e : (s.cnt.toNat + (n + 1) * s.reload.toNat) % (s.reload.toNat + 1)
        = ((s.cnt.toNat + n * s.reload.toNat) % (s.reload.toNat + 1) + s.reload.toNat) % (s.reload.toNat + 1) := by
      rw [Nat.mod_add_mod]; congr 1; ring
    rw [e, ← hc, timerTick_cnt]
    by_cases h0 : (timerTick^[n] s).cnt = 0
    · rw [nextCount_of_zero h0, hr, h0]
      simp [Nat.mod_eq_of_lt]
    · have h1 := nextCount_toNat_of_ne h0
      have hlt : (timerTick^[n] s).cnt.toNat < s.reload.toNat + 1 := by rw [hc]; exact Nat.mod_lt _ (by omega)
      rw [show (timerTick^[n] s).cnt.toNat + s.reload.toNat
        = (nextCount (timerTick^[n] s)).toNat + (s.reload.toNat + 1) by omega, Nat.add_mod_right,
        Nat.mod_eq_of_lt (by omega)]

/-! ### The waits -/

theorem timerStart_legal {n : Nat} (s : State) (h : TicksInRange n) :
    timerStart n s = .ok { s with reload := BitVec.ofNat 24 (n - 1), cnt := 0 } := if_pos h

theorem timerStart_illegal {n : Nat} (s : State) (h : ¬ TicksInRange n) :
    timerStart n s = .error (.ticksRange n) := if_neg h

theorem reload_toNat {n : Nat} (h : TicksInRange n) : (BitVec.ofNat 24 (n - 1)).toNat = n - 1 := by
  obtain ⟨h1, h2⟩ := h
  rw [BitVec.toNat_ofNat, Nat.mod_eq_of_lt (by omega)]

/-- TMR_TICK until `expire` takes the remaining ticks and leaves CNT at zero. -/
theorem tickUntilExpire_eq : ∀ (m fuel : Nat) (s : State), remaining s = m → m ≤ fuel → QuietFor s m →
    tickUntilExpire fuel s = .on (after m { s with cnt := 0 }) := by
  intro m
  induction m with
  | zero => intro fuel s h; have := remaining_pos s; omega
  | succ m ih =>
    intro fuel s h hf hq
    obtain ⟨fuel, rfl⟩ : ∃ f, fuel = f + 1 := ⟨fuel - 1, by omega⟩
    rw [tickUntilExpire, onEdge_quiet (t := timerTick s) (quietFor_now hq) rfl, Pass.andThen]
    by_cases h1 : remaining s = 1
    · have hz := (nextCount_eq_zero_iff s).2 h1
      rw [if_pos ((expire_iff s).2 hz)]
      obtain rfl : m = 0 := by omega
      simp [timerTick, hz, State.advance, after]
    · rw [if_neg (by simpa [expire] using fun e => h1 ((nextCount_eq_zero_iff s).1 e))]
      have hr := remaining_timerTick h1
      rw [ih fuel (timerTick s).advance (by rw [show remaining (timerTick s).advance = remaining (timerTick s) from rfl]; omega)
        (by omega) (quietFor_next hq rfl rfl)]
      simp [timerTick, State.advance, after, Nat.add_assoc, Nat.add_comm 1 m]

/-- Ticks until the unit counter is exhausted. -/
def unitsRemaining (s : State) : Nat := (s.ucnt - 1) * (s.reload.toNat + 1) + remaining s

/-- One tick of a unit wait that is not the last. -/
theorem unitTick_going {s : State} (done : State → State) (hu : 1 ≤ s.ucnt) (h : unitsRemaining s ≠ 1) :
    ∃ u, 1 ≤ u ∧ u ≤ s.ucnt ∧ unitTick done s = State.setUcnt u (timerTick s) ∧
      unitsRemaining (State.setUcnt u (timerTick s)) + 1 = unitsRemaining s := by
  unfold unitTick
  by_cases h1 : remaining s = 1
  · have hz := (nextCount_eq_zero_iff s).2 h1
    rw [if_pos ((expire_iff s).2 hz)]
    by_cases hu1 : s.ucnt = 1
    · exact absurd (by simp [unitsRemaining, hu1, h1]) h
    · rw [if_neg hu1]
      refine ⟨s.ucnt - 1, by omega, by omega, ?_, ?_⟩
      · unfold countUnit
        rw [if_neg (by simpa using Nat.one_le_iff_ne_zero.1 hu)]
        rfl
      · obtain ⟨v, hv⟩ : ∃ v, s.ucnt = v + 2 := ⟨s.ucnt - 2, by omega⟩
        have hr : remaining (State.setUcnt (s.ucnt - 1) (timerTick s)) = s.reload.toNat + 1 := by
          simp [remaining, hz]
        rw [unitsRemaining, hr, unitsRemaining, h1, setUcnt_reload, setUcnt_ucnt, timerTick_reload, hv]
        rw [show v + 2 - 1 - 1 = v by omega, show v + 2 - 1 = v + 1 by omega]
        ring
  · rw [if_neg (by simpa [expire] using fun e => h1 ((nextCount_eq_zero_iff s).1 e))]
    have hr := remaining_timerTick h1
    refine ⟨s.ucnt, hu, le_rfl, rfl, ?_⟩
    simp only [unitsRemaining, setUcnt_reload, setUcnt_ucnt, timerTick_reload]
    rw [show remaining (State.setUcnt s.ucnt (timerTick s)) = remaining (timerTick s) from rfl]
    omega

/-- The last tick of a unit wait. -/
theorem unitTick_last {s : State} (done : State → State) (hu : 1 ≤ s.ucnt) (h : unitsRemaining s = 1) :
    s.ucnt = 1 ∧ nextCount s = 0 ∧ unitTick done s = done { s with cnt := 0, ucnt := 0 } := by
  have hp := remaining_pos s
  unfold unitsRemaining at h
  have hm : (s.ucnt - 1) * (s.reload.toNat + 1) = 0 := by omega
  have h1 : remaining s = 1 := by omega
  have hu1 : s.ucnt = 1 := by
    rcases Nat.mul_eq_zero.1 hm with e | e <;> omega
  have hz := (nextCount_eq_zero_iff s).2 h1
  refine ⟨hu1, hz, ?_⟩
  rw [unitTick, if_pos ((expire_iff s).2 hz), if_pos hu1]
  simp [timerTick, State.setUcnt, hz]

/-- TMR_TICK until the units are over takes the remaining ticks and leaves both counters at zero. -/
theorem tickUntilUnits_eq : ∀ (m fuel : Nat) (s : State), 1 ≤ s.ucnt → unitsRemaining s = m → m ≤ fuel → QuietFor s m →
    tickUntilUnits fuel s = .on (after m { s with ucnt := 0, cnt := 0 }) := by
  intro m
  induction m with
  | zero => intro fuel s _ h; have := remaining_pos s; unfold unitsRemaining at h; omega
  | succ m ih =>
    intro fuel s hu h hf hq
    obtain ⟨fuel, rfl⟩ : ∃ f, fuel = f + 1 := ⟨fuel - 1, by omega⟩
    rw [tickUntilUnits, if_neg (by omega), onEdge_quiet (t := unitTick id s) (quietFor_now hq) rfl, Pass.andThen]
    by_cases h1 : unitsRemaining s = 1
    · obtain ⟨-, -, e⟩ := unitTick_last id hu h1
      obtain rfl : m = 0 := by omega
      rw [e]
      cases fuel <;> simp [tickUntilUnits, State.advance, after]
    · obtain ⟨u, hu1, -, e, hr⟩ := unitTick_going id hu h1
      rw [e, ih fuel (State.setUcnt u (timerTick s)).advance hu1
        (by rw [show unitsRemaining (State.advance (State.setUcnt u (timerTick s)))
              = unitsRemaining (State.setUcnt u (timerTick s)) from rfl]; omega)
        (by omega) (quietFor_next hq rfl rfl)]
      simp [timerTick, State.setUcnt, State.advance, after, Nat.add_assoc, Nat.add_comm 1 m]

/-! ### A fixed number of ticks -/

theorem timerTick_iterate (s : State) : ∀ n, timerTick^[n] s = { s with cnt := (timerTick^[n] s).cnt }
  | 0 => rfl
  | n + 1 => by
    rw [Function.iterate_succ_apply', timerTick_iterate s n]
    rfl

/-- Whole periods of the timer bring the count back to zero. -/
theorem timerTick_periods (s : State) (h : s.cnt = 0) (m : Nat) : timerTick^[m * (s.reload.toNat + 1)] s = s := by
  have hc := (timerTick_iterate_cnt s (by rw [h, BitVec.le_def]; exact Nat.zero_le _) (m * (s.reload.toNat + 1))).2
  rw [timerTick_iterate]
  have : (timerTick^[m * (s.reload.toNat + 1)] s).cnt = s.cnt := by
    refine BitVec.eq_of_toNat_eq (hc.trans ?_)
    rw [h, show m * (s.reload.toNat + 1) * s.reload.toNat = (s.reload.toNat + 1) * (m * s.reload.toNat) by ring]
    simp
  rw [this]

theorem tickFor_eq : ∀ (n : Nat) (s : State), QuietFor s n → tickFor n s = .on (after n (timerTick^[n] s))
  | 0, _, _ => rfl
  | n + 1, s, hq => by
    rw [tickFor, onEdge_quiet (t := timerTick s) (quietFor_now hq) rfl, Pass.andThen,
      tickFor_eq n (timerTick s).advance (quietFor_next (s := s) hq rfl rfl), Function.iterate_succ_apply,
      show timerTick^[n] (timerTick s).advance = (timerTick^[n] (timerTick s)).advance from
        (Function.Semiconj.iterate_right (f := State.advance) (ga := timerTick) (gb := timerTick)
          (fun _ => rfl) n (timerTick s)).symm,
      advance_eq_after, after_after, Nat.add_comm 1 n]

/-- A reset at the `k`-th edge from now abandons the ticks that remain. -/
theorem tickFor_reset : ∀ (k n : Nat) (s : State), k < n → QuietFor s k → rstAt s.env (s.edges + 1 + k) = true →
    tickFor n s = .reset { s.enterReset with edges := s.edges + 1 + k }
  | 0, n + 1, s, _, _, hr => by rw [tickFor, onEdge_reset _ hr]; rfl
  | k + 1, n + 1, s, h, hq, hr => by
    rw [tickFor, onEdge_quiet (t := timerTick s) (quietFor_now hq) rfl, Pass.andThen,
      tickFor_reset k n (timerTick s).advance (by omega) (quietFor_next (s := s) hq rfl rfl)
        (by simp only [State.advance, timerTick]
            rw [show s.edges + 1 + 1 + k = s.edges + 1 + (k + 1) by omega]; exact hr)]
    simp only [State.enterReset, State.advance, timerTick]
    rw [show s.edges + 1 + 1 + k = s.edges + 1 + (k + 1) by omega]

/-- A reset at the `k`-th edge from now abandons a wait for `expire` that is still going. -/
theorem tickUntilExpire_reset : ∀ (k fuel : Nat) (s : State), k < remaining s → k < fuel → QuietFor s k →
    rstAt s.env (s.edges + 1 + k) = true →
    tickUntilExpire fuel s = .reset { s.enterReset with edges := s.edges + 1 + k }
  | 0, fuel + 1, s, _, _, _, hr => by rw [tickUntilExpire, onEdge_reset _ hr]; rfl
  | k + 1, fuel + 1, s, h, hf, hq, hr => by
    have h1 : remaining s ≠ 1 := by omega
    have hrem := remaining_timerTick h1
    rw [tickUntilExpire, onEdge_quiet (t := timerTick s) (quietFor_now hq) rfl, Pass.andThen,
      if_neg (by simpa [expire] using fun e => h1 ((nextCount_eq_zero_iff s).1 e)),
      tickUntilExpire_reset k fuel (timerTick s).advance
        (by rw [show remaining (timerTick s).advance = remaining (timerTick s) from rfl]; omega) (by omega)
        (quietFor_next (s := s) hq rfl rfl)
        (by simp only [State.advance, timerTick]
            rw [show s.edges + 1 + 1 + k = s.edges + 1 + (k + 1) by omega]; exact hr)]
    simp only [State.enterReset, State.advance, timerTick]
    rw [show s.edges + 1 + 1 + k = s.edges + 1 + (k + 1) by omega]

/-- A reset at the `k`-th edge from now abandons a unit wait that is still going. -/
theorem tickUntilUnits_reset : ∀ (k fuel : Nat) (s : State), 1 ≤ s.ucnt → k < unitsRemaining s → k < fuel →
    QuietFor s k → rstAt s.env (s.edges + 1 + k) = true →
    tickUntilUnits fuel s = .reset { s.enterReset with edges := s.edges + 1 + k } := by
  intro k
  induction k with
  | zero =>
    intro fuel s hu _ hf _ hr
    obtain ⟨fuel, rfl⟩ : ∃ f, fuel = f + 1 := ⟨fuel - 1, by omega⟩
    rw [tickUntilUnits, if_neg (by omega), onEdge_reset _ hr]
    rfl
  | succ k ih =>
    intro fuel s hu h hf hq hr
    obtain ⟨fuel, rfl⟩ : ∃ f, fuel = f + 1 := ⟨fuel - 1, by omega⟩
    rw [tickUntilUnits, if_neg (by omega), onEdge_quiet (t := unitTick id s) (quietFor_now hq) rfl, Pass.andThen]
    obtain ⟨u, hu1, -, e, hrem⟩ := unitTick_going id hu (by omega)
    rw [e, ih fuel (State.setUcnt u (timerTick s)).advance hu1
      (by rw [show unitsRemaining (State.advance (State.setUcnt u (timerTick s)))
            = unitsRemaining (State.setUcnt u (timerTick s)) from rfl]; omega)
      (by omega) (quietFor_next hq rfl rfl)
      (by simp only [State.advance, State.setUcnt, timerTick]
          rw [show s.edges + 1 + 1 + k = s.edges + 1 + (k + 1) by omega]; exact hr)]
    simp only [State.enterReset, State.advance, State.setUcnt, timerTick]
    rw [show s.edges + 1 + 1 + k = s.edges + 1 + (k + 1) by omega]

/-- The start of a wait of at least one unit. -/
theorem startUnits_pos {n : Nat} (s : State) (h : n ≠ 0) (hU : TicksInRange s.cfg.unitTicks) :
    startUnits n s = .ok { s with ucnt := n, reload := BitVec.ofNat 24 (s.cfg.unitTicks - 1), cnt := 0 } := by
  rw [startUnits, if_neg h, timerStart_legal _ hU]; rfl

theorem startUnits_zero (s : State) : startUnits 0 s = .ok { s with ucnt := 0, cnt := nextCount s } := rfl

/-- A unit wait that has just been started lasts `n` units. -/
theorem unitsRemaining_started {n U : Nat} (s : State) (h : 1 ≤ n) (hU : TicksInRange U) :
    unitsRemaining { s with ucnt := n, reload := BitVec.ofNat 24 (U - 1), cnt := 0 } = n * U := by
  have hr := reload_toNat hU
  obtain ⟨m, rfl⟩ := Nat.exists_eq_add_of_le' h
  obtain ⟨V, rfl⟩ := Nat.exists_eq_add_of_le' hU.1
  rw [unitsRemaining]
  simp only [remaining, if_true, hr]
  rw [show V + 1 - 1 = V by omega, show m + 1 - 1 = m by omega]
  ring

end Sys2Proof.Laws
end

