-- ==== Sys2Proof/Laws/Engine.lean ====
section
/-! SUPPORT. The ports and the phases: what each shared operation of the engine comes to. -/

namespace Sys2Proof.Laws

open Sys2Proof.Machine

/-! ### The ports -/

/-- The masked write, bit by bit. -/
theorem maskedWrite_testBit (w old bits mask i : Nat) :
    (maskedWrite w old bits mask).testBit i =
      (decide (i < w) && (if mask.testBit i then bits.testBit i else old.testBit i)) := by
  unfold maskedWrite notAt ones trunc
  simp only [Nat.testBit_or, Nat.testBit_and, Nat.testBit_xor, Nat.testBit_two_pow_sub_one, Nat.testBit_mod_two_pow]
  by_cases hi : i < w <;> cases hm : mask.testBit i <;> simp [hi]

theorem notAt_testBit (w v i : Nat) : (notAt w v).testBit i = (decide (i < w) && !v.testBit i) := by
  unfold notAt ones trunc
  simp only [Nat.testBit_xor, Nat.testBit_two_pow_sub_one, Nat.testBit_mod_two_pow]
  by_cases hi : i < w <;> simp [hi]

theorem lt_two_pow_of_testBit {w v : Nat} (h : ∀ i, w ≤ i → v.testBit i = false) : v < 2 ^ w :=
  Nat.lt_pow_two_of_testBit v h

theorem testBit_ge {w v i : Nat} (h : v < 2 ^ w) (hi : w ≤ i) : v.testBit i = false :=
  Nat.testBit_lt_two_pow (h.trans_le (Nat.pow_le_pow_right (by norm_num) hi))

theorem maskedWrite_lt (w old bits mask : Nat) : maskedWrite w old bits mask < 2 ^ w := by
  refine lt_two_pow_of_testBit fun i hi => ?_
  rw [maskedWrite_testBit]
  simp [hi]

/-- A write of every bit of a port gives the value. -/
theorem maskedWrite_whole (w old v : Nat) (h : v < 2 ^ w) : maskedWrite w old v (ones w) = v := by
  refine Nat.eq_of_testBit_eq fun i => ?_
  rw [maskedWrite_testBit]
  unfold ones
  rw [Nat.testBit_two_pow_sub_one]
  by_cases hi : i < w
  · simp [hi]
  · simp [hi, testBit_ge h (Nat.le_of_not_lt hi)]

/-- The bits outside the mask stay. -/
theorem maskedWrite_foreign (w old bits mask : Nat) :
    maskedWrite w old bits mask &&& notAt w mask = old &&& notAt w mask := by
  refine Nat.eq_of_testBit_eq fun i => ?_
  rw [Nat.testBit_and, Nat.testBit_and, maskedWrite_testBit, notAt_testBit]
  by_cases hi : i < w <;> cases hm : mask.testBit i <;> simp [hi]

/-- The bits under a mask of the port's width are the new ones. -/
theorem maskedWrite_owned (w old bits mask : Nat) (h : mask < 2 ^ w) :
    maskedWrite w old bits mask &&& mask = bits &&& mask := by
  refine Nat.eq_of_testBit_eq fun i => ?_
  rw [Nat.testBit_and, Nat.testBit_and, maskedWrite_testBit]
  by_cases hi : i < w
  · cases hm : mask.testBit i <;> simp [hi]
  · simp [testBit_ge h (Nat.le_of_not_lt hi)]

theorem driveOutputs_eq (s : State) {r : Row} (h : r.po < 2 ^ s.cfg.pw) :
    driveOutputs r.po r.so s =
      { s with
        pout := r.po
        sport := maskedWrite s.cfg.sportW s.sport r.so s.cfg.smask
        history := s.history ++ [.outWrite (s.tick + 1) r.po (r.so &&& s.cfg.smask)] } := by
  simp [driveOutputs, State.record, writePort, maskedWrite_whole _ _ _ h]

/-! ### The phases -/

theorem row_po_lt {c : Config} {r : Row} (h : r.WF c) : r.po < 2 ^ c.pw := ((row_wf_iff c r).1 h).2.1.1

theorem row_dwell_lt {c : Config} {r : Row} (h : r.WF c) : r.dwell < 2 ^ c.dwellW := ((row_wf_iff c r).1 h).2.1.2.2

theorem nextCount_congr {s t : State} (h1 : s.cnt = t.cnt) (h2 : s.reload = t.reload) : nextCount s = nextCount t := by
  simp [nextCount, h1, h2]

/-- OUT with a zero dwell. -/
theorem outTick_zero {s : State} {r : Row} (h : r.WF s.cfg) (hd : r.dwell = 0) :
    outTick r s = .ok
      { s with
        pout := r.po
        sport := maskedWrite s.cfg.sportW s.sport r.so s.cfg.smask
        ucnt := 0
        cnt := nextCount s
        ph := .sample
        history := s.history ++ [.outWrite (s.tick + 1) r.po (r.so &&& s.cfg.smask)] } := by
  rw [outTick, hd, startUnits_zero, driveOutputs_eq s (row_po_lt h)]
  rfl

/-- OUT with a nonzero dwell. -/
theorem outTick_pos {s : State} {r : Row} (h : r.WF s.cfg) (hd : r.dwell ≠ 0) (hU : TicksInRange s.cfg.unitTicks) :
    outTick r s = .ok
      { s with
        pout := r.po
        sport := maskedWrite s.cfg.sportW s.sport r.so s.cfg.smask
        ucnt := r.dwell
        reload := BitVec.ofNat 24 (s.cfg.unitTicks - 1)
        cnt := 0
        ph := .dwell
        history := s.history ++ [.outWrite (s.tick + 1) r.po (r.so &&& s.cfg.smask)] } := by
  rw [outTick, startUnits_pos (driveOutputs r.po r.so s) hd hU, driveOutputs_eq s (row_po_lt h)]
  simp [hd, State.setPh]

/-- OUT always runs on a well-formed row with a legal unit. -/
theorem outTick_ok {s : State} {r : Row} (h : r.WF s.cfg) (hU : TicksInRange s.cfg.unitTicks) :
    ∃ t, outTick r s = .ok t := by
  by_cases hd : r.dwell = 0
  · exact ⟨_, outTick_zero h hd⟩
  · exact ⟨_, outTick_pos h hd hU⟩

/-- NEXT on a well-formed row. -/
theorem nextTick_ok {s : State} {r : Row} {target : Nat} (h : targetOf s.cfg s.cur r s.inp = .ok target) :
    nextTick r s = .ok
      { s with
        cur := target
        ph := .out
        cnt := nextCount s
        history := s.history ++ [.transition (s.tick + 1) s.cur target] } := by
  rw [nextTick, h]
  rfl

/-- DWELL changes CNT, UCNT, PH and the draw counter, and nothing else. -/
theorem dwellTick_frame (s : State) :
    dwellTick s = { s with cnt := nextCount s, ucnt := (dwellTick s).ucnt, ph := (dwellTick s).ph, draws := (dwellTick s).draws } := by
  unfold dwellTick unitTick countUnit drawUnits
  split_ifs <;> rfl

theorem dwellTick_ph (s : State) : (dwellTick s).ph = s.ph ∨ (dwellTick s).ph = .sample ∧ (dwellTick s).ucnt = 0 := by
  unfold dwellTick unitTick countUnit drawUnits
  split_ifs <;> simp

/-! ### Operations under the check, at a CUR that names a row -/

theorem withCur_lt (op : State → Except Fault State) {s : State} (h : s.cur < s.cfg.nstates) : withCur op s = op s := if_pos h

theorem withCur_ge (op : State → Except Fault State) {s : State} (h : s.cfg.nstates ≤ s.cur) :
    withCur op s = .error (.tableInvalid .identifier s.cur) := if_neg (Nat.not_lt.2 h)

theorem withCur_ok {op : State → Except Fault State} {s u : State} (h : withCur op s = .ok u) :
    s.cur < s.cfg.nstates ∧ op s = .ok u := by
  unfold withCur at h
  split_ifs at h with hc
  exact ⟨hc, h⟩

theorem withRow_row (op : Row → State → Except Fault State) {s : State} {r : Row} (h : rowAt s.cfg s.cur = .ok r) :
    withRow op s = op r s := by
  rw [withRow, withCur_lt _ (rowAt_lt h), h]

theorem withRow_ok {op : Row → State → Except Fault State} {s u : State} (h : withRow op s = .ok u) :
    ∃ r, rowAt s.cfg s.cur = .ok r ∧ op r s = .ok u := by
  have h := (withCur_ok h).2
  split at h
  · exact ⟨_, by assumption, h⟩
  · cases h

/-- An operation of one edge, under the check and with RST = 0, answers its result one tick later. -/
theorem checked_edge {op : State → Except Fault State} {s t : State} (hv : Valid s.cfg) (hr : rstNow s = false)
    (h : op s = .ok t) : checked (fun s => (onEdge op s).outcome) s = .next (after 1 t) := by
  rw [checked_valid _ hv, onEdge_quiet hr h]
  rfl

/-- The same operation stopped by a fault of its own. -/
theorem checked_edge_fault {op : State → Except Fault State} {s : State} {f : Fault} (hv : Valid s.cfg)
    (hr : rstNow s = false) (h : op s = .error f) : checked (fun s => (onEdge op s).outcome) s = .fault f := by
  rw [checked_valid _ hv, onEdge_fault hr h]
  rfl

/-- The same operation at an edge with RST = 1. -/
theorem checked_edge_reset (op : State → Except Fault State) {s : State} (hv : Valid s.cfg) (hr : rstNow s = true) :
    checked (fun s => (onEdge op s).outcome) s = .next s.enterReset := by
  rw [checked_valid _ hv, onEdge_reset _ hr]
  rfl

/-! ### What each operation is at a valid configuration -/

theorem rowTick_wf {r : Row} {s : State} (h : r.WF s.cfg) : rowTick r s = phaseTick r s := by
  unfold rowTick
  rw [h]

theorem rowTick_failure {r : Row} {s : State} {cond : Condition} (h : r.failure s.cfg = some cond) :
    rowTick r s = .error (.tableInvalid cond s.cur) := by
  unfold rowTick
  rw [h]

theorem answer_ok {α : Type} (ret : α → Ret) (v : α) (s : State) : answer ret (.ok v) s = .next { s with ret := ret v } := rfl

theorem answer_error {α : Type} (ret : α → Ret) (f : Fault) (s : State) : answer ret (.error f) s = .fault f := rfl

variable {s : State}

theorem exec_state (r : Row) (hv : Valid s.cfg) : exec (.state r) s =
    (onEdge (withCur (rowTick r)) s).outcome := by
  rw [exec, execState, checked_valid _ hv]

theorem exec_out (hv : Valid s.cfg) : exec .out s =
    (onEdge (withRow outTick) s).outcome := by
  rw [exec, execOut, checked_valid _ hv]

theorem exec_dwell (hv : Valid s.cfg) : exec .dwell s =
    (onEdge (withCur fun t => .ok (dwellTick t)) s).outcome := by
  rw [exec, execDwell, checked_valid _ hv]

theorem exec_sample (hv : Valid s.cfg) : exec .sample s =
    (onEdge (withCur fun t => .ok (sampleTick t)) s).outcome := by
  rw [exec, execSample, checked_valid _ hv]

theorem exec_next (hv : Valid s.cfg) : exec .next s =
    (onEdge (withRow nextTick) s).outcome := by
  rw [exec, execNext, checked_valid _ hv]

theorem exec_tmrStart (n : Nat) (hv : Valid s.cfg) : exec (.tmrStart n) s =
    (onEdge (timerStart n) s).outcome := by
  rw [exec, execTmrStart, checked_valid _ hv]

theorem exec_tmrTick (hv : Valid s.cfg) : exec .tmrTick s =
    (onEdge (fun t => .ok (timerTick t)) s).outcome := by
  rw [exec, execTmrTick, checked_valid _ hv]

theorem exec_step (st code : Nat) (hv : Valid s.cfg) : exec (.step st code) s =
    answer .ident (stepLookup s.cfg st code) s := by
  rw [exec, execStep, checked_valid _ hv]

theorem exec_outputsFor (st : Nat) (hv : Valid s.cfg) : exec (.outputsFor st) s =
    answer (fun out => .outputs out.1 out.2) (outputsLookup s.cfg st) s := by
  rw [exec, execOutputsFor, checked_valid _ hv]

theorem exec_run (hv : Valid s.cfg) : exec .run s =
    (iteration s).outcome := by
  rw [exec, execRun, checked_valid _ hv]

theorem exec_waitTicks (n : Nat) (hv : Valid s.cfg) : exec (.waitTicks n) s =
    ((onEdge (waitTicksStart n) s).andThen (tickUntilExpire n)).outcome := by
  rw [exec, execWaitTicks, checked_valid _ hv]

theorem exec_waitUnits_zero (hv : Valid s.cfg) : exec (.waitUnits 0) s =
    (onEdge (fun t => .ok (timerTick t)) s).outcome := by
  rw [exec, execWaitUnits, checked_valid _ hv, if_pos rfl]

theorem exec_readInputs (hv : Valid s.cfg) : exec .readInputs s =
    .next { s with ret := .bits (readSens s) } := by
  rw [exec, execReadInputs, checked_valid _ hv]

theorem exec_writeOutputs (port : Port) (bits mask : Nat) (hv : Valid s.cfg) : exec (.writeOutputs port bits mask) s =
    (onEdge (fun t => .ok (writePort port bits mask (timerTick t))) s).outcome := by
  rw [exec, execWriteOutputs, checked_valid _ hv]

theorem exec_waitUnits {n : Nat} (hv : Valid s.cfg) (h0 : n ≠ 0) (h : n < 2 ^ s.cfg.dwellW) : exec (.waitUnits n) s =
    ((onEdge (startUnits n) s).andThen (tickUntilUnits (n * s.cfg.unitTicks))).outcome := by
  rw [exec, execWaitUnits, checked_valid _ hv, if_neg h0, if_pos h]

theorem exec_waitUnits_long {n : Nat} (hv : Valid s.cfg) (h : 2 ^ s.cfg.dwellW ≤ n) : exec (.waitUnits n) s =
    ((onEdge startLongWait s).andThen fun t =>
      (tickFor (n * t.cfg.unitTicks) t).andThen fun u => .on (State.setUcnt 0 u)).outcome := by
  have := Nat.two_pow_pos s.cfg.dwellW
  rw [exec, execWaitUnits, checked_valid _ hv, if_neg (by omega), if_neg (by omega)]

/-! ### One edge of each phase, with RST = 0 and at a valid configuration -/

theorem exec_out_quiet {s t : State} {r : Row} (hv : Valid s.cfg) (hr : rstNow s = false)
    (hrow : rowAt s.cfg s.cur = .ok r) (h : outTick r s = .ok t) : exec .out s = .next (after 1 t) :=
  checked_edge hv hr ((withRow_row _ hrow).trans h)

theorem exec_dwell_quiet {s : State} (hv : Valid s.cfg) (hr : rstNow s = false) (hc : s.cur < s.cfg.nstates) :
    exec .dwell s = .next (after 1 (dwellTick s)) :=
  checked_edge hv hr (withCur_lt _ hc)

theorem exec_sample_quiet {s : State} (hv : Valid s.cfg) (hr : rstNow s = false) (hc : s.cur < s.cfg.nstates) :
    exec .sample s = .next (after 1 (sampleTick s)) :=
  checked_edge hv hr (withCur_lt _ hc)

theorem exec_next_quiet {s t : State} {r : Row} (hv : Valid s.cfg) (hr : rstNow s = false)
    (hrow : rowAt s.cfg s.cur = .ok r) (h : nextTick r s = .ok t) : exec .next s = .next (after 1 t) :=
  checked_edge hv hr ((withRow_row _ hrow).trans h)

/-! ### What the check refuses -/

/-- Every operation makes the check first: at a configuration that it refuses each faults alike. -/
theorem exec_invalid {s : State} {f : Fault} (h : configFailure s.cfg = some f) (i : Instr) : exec i s = .fault f := by
  cases i <;>
    simp only [exec, execState, execOut, execDwell, execSample, execNext, execTmrStart, execTmrTick, execStep, execOutputsFor,
      execRun, execWaitTicks, execWaitUnits, execReadInputs, execWriteOutputs, checked_invalid _ h]

theorem exec_next_valid {s t : State} {i : Instr} (h : exec i s = .next t) : Valid s.cfg := by
  cases hf : configFailure s.cfg with
  | none => exact hf
  | some f => rw [exec_invalid hf] at h; cases h

/-! ### Steps -/

theorem step_eq (s : State) : step s = exec (Instr.ofPhase s.ph) s := rfl

theorem step_next_valid {s t : State} (h : step s = .next t) : Valid s.cfg ∧ exec (Instr.ofPhase s.ph) s = .next t :=
  ⟨exec_next_valid h, h⟩

/-- What one edge under the check answers: a reset, or the operation's result one tick later. -/
theorem checked_edge_next {op : State → Except Fault State} {s t : State}
    (h : checked (fun s => (onEdge op s).outcome) s = .next t) :
    (rstNow s = true ∧ t = s.enterReset) ∨ (rstNow s = false ∧ ∃ u, op s = .ok u ∧ t = after 1 u) :=
  onEdge_next (checked_next h).2

/-- THE INVERSION LEMMA OF A STEP: a reset, or the tick of the phase PH selects at a CUR that names a row. -/
theorem step_cases {s t : State} (h : step s = .next t) : Valid s.cfg ∧
    ((rstNow s = true ∧ t = s.enterReset) ∨
     (rstNow s = false ∧ s.cur < s.cfg.nstates ∧
      ((s.ph = .out ∧ ∃ r u, rowAt s.cfg s.cur = .ok r ∧ outTick r s = .ok u ∧ t = after 1 u) ∨
       (s.ph = .dwell ∧ t = after 1 (dwellTick s)) ∨
       (s.ph = .sample ∧ t = after 1 (sampleTick s)) ∨
       (s.ph = .next ∧ ∃ r target, rowAt s.cfg s.cur = .ok r ∧ targetOf s.cfg s.cur r s.inp = .ok target ∧
          t = after 1
            { s with
              cur := target
              ph := .out
              cnt := nextCount s
              history := s.history ++ [.transition (s.tick + 1) s.cur target] })))) := by
  obtain ⟨hv, h⟩ := step_next_valid h
  refine ⟨hv, ?_⟩
  cases hp : s.ph <;> rw [hp] at h
  · rcases checked_edge_next (op := withRow outTick) h with h | ⟨hr, u, hu, ht⟩
    · exact .inl h
    · obtain ⟨r, hrow, hu⟩ := withRow_ok hu
      exact .inr ⟨hr, rowAt_lt hrow, .inl ⟨rfl, r, u, hrow, hu, ht⟩⟩
  · rcases checked_edge_next (op := withCur fun t => .ok (dwellTick t)) h with h | ⟨hr, u, hu, ht⟩
    · exact .inl h
    · obtain ⟨hc, hu⟩ := withCur_ok hu
      cases hu; exact .inr ⟨hr, hc, .inr (.inl ⟨rfl, ht⟩)⟩
  · rcases checked_edge_next (op := withCur fun t => .ok (sampleTick t)) h with h | ⟨hr, u, hu, ht⟩
    · exact .inl h
    · obtain ⟨hc, hu⟩ := withCur_ok hu
      cases hu; exact .inr ⟨hr, hc, .inr (.inr (.inl ⟨rfl, ht⟩))⟩
  · rcases checked_edge_next (op := withRow nextTick) h with h | ⟨hr, u, hu, ht⟩
    · exact .inl h
    · obtain ⟨r, hrow, hu⟩ := withRow_ok hu
      refine .inr ⟨hr, rowAt_lt hrow, .inr (.inr (.inr ⟨rfl, ?_⟩))⟩
      cases htg : targetOf s.cfg s.cur r s.inp with
      | error f => rw [nextTick, htg] at hu; cases hu
      | ok target =>
        rw [nextTick_ok htg] at hu; cases hu
        exact ⟨r, target, hrow, htg, ht⟩

theorem step_reset {s : State} (hv : Valid s.cfg) (h : rstNow s = true) : step s = .next s.enterReset := by
  rw [step_eq]
  cases s.ph <;> exact checked_edge_reset _ hv h

/-! ### Runs of several steps -/

theorem runTicks_zero (s : State) : runTicks 0 s = .next s := rfl

theorem run_next (M : Host.Core) {s t : M.State} (n : Nat) (h : M.step s = .next t) :
    Host.Core.run M (n + 1) s = Host.Core.run M n t := by
  rw [Host.Core.run.eq_def]; simp only [h]

theorem run_fault (M : Host.Core) {s : M.State} {f : M.Fault} (n : Nat) (h : M.step s = .fault f) :
    Host.Core.run M (n + 1) s = .fault f := by
  rw [Host.Core.run.eq_def]; simp only [h]

theorem run_refused (M : Host.Core) {s : M.State} {r : M.Refusal} (n : Nat) (h : M.step s = .refused r) :
    Host.Core.run M (n + 1) s = .refused r := by
  rw [Host.Core.run.eq_def]; simp only [h]

theorem runTicks_succ {s t : State} (n : Nat) (h : step s = .next t) : runTicks (n + 1) s = runTicks n t :=
  run_next Sys2Proof.core n h

theorem runTicks_add : ∀ (m n : Nat) {s t : State}, runTicks m s = .next t → runTicks (m + n) s = runTicks n t
  | 0, n, s, t, h => by cases h; rw [Nat.zero_add]
  | m + 1, n, s, t, h => by
    cases hs : step s with
    | next u =>
      rw [runTicks_succ m hs] at h
      rw [Nat.add_right_comm, runTicks_succ _ hs]
      exact runTicks_add m n h
    | fault f => exact nomatch (run_fault Sys2Proof.core m hs).symm.trans h
    | refused f => exact nomatch (run_refused Sys2Proof.core m hs).symm.trans h

/-! ### What a stretch of edges keeps -/

theorem onEdge_keeps {P : State → Prop} {op : State → Except Fault State} {s : State} (hr : P s.enterReset)
    (ho : ∀ u, op s = .ok u → P u.advance) : ∀ t, (onEdge op s).outcome = .next t → P t := by
  intro t h
  rcases onEdge_next h with ⟨-, rfl⟩ | ⟨-, u, hu, rfl⟩
  · exact hr
  · exact ho u hu

theorem andThen_keeps {P : State → Prop} {p : Pass} {k : State → Pass} (hp : ∀ t, p.outcome = .next t → P t)
    (hk : ∀ s, P s → ∀ t, (k s).outcome = .next t → P t) : ∀ t, (p.andThen k).outcome = .next t → P t := by
  intro t h
  cases p with
  | on s => exact hk s (hp s rfl) t h
  | reset s => exact hp t h
  | fault f => cases h

theorem tickUntilUnits_keeps {P : State → Prop} (hr : ∀ s, P s → P s.enterReset)
    (ht : ∀ s, P s → P (unitTick id s).advance) :
    ∀ fuel s, P s → ∀ t, (tickUntilUnits fuel s).outcome = .next t → P t := by
  intro fuel
  induction fuel with
  | zero => intro s h t ht'; cases ht'; exact h
  | succ n ih =>
    intro s h
    rw [tickUntilUnits]
    split_ifs
    · intro t ht'; cases ht'; exact h
    · exact andThen_keeps (onEdge_keeps (hr s h) fun u hu => by cases hu; exact ht s h) ih

theorem tickUntilExpire_keeps {P : State → Prop} (hr : ∀ s, P s → P s.enterReset)
    (ht : ∀ s, P s → P (timerTick s).advance) :
    ∀ fuel s, P s → ∀ t, (tickUntilExpire fuel s).outcome = .next t → P t := by
  intro fuel
  induction fuel with
  | zero => intro s h t ht'; cases ht'; exact h
  | succ n ih =>
    intro s h
    rw [tickUntilExpire]
    refine andThen_keeps (onEdge_keeps (hr s h) fun u hu => by cases hu; exact ht s h) fun v hv => ?_
    split_ifs
    · intro t ht'; cases ht'; exact hv
    · exact ih v hv

theorem tickFor_keeps {P : State → Prop} (hr : ∀ s, P s → P s.enterReset) (ht : ∀ s, P s → P (timerTick s).advance) :
    ∀ n s, P s → ∀ t, (tickFor n s).outcome = .next t → P t
  | 0, s, h, t, ht' => by cases ht'; exact h
  | n + 1, s, h, t, ht' =>
    andThen_keeps (onEdge_keeps (hr s h) fun u hu => by cases hu; exact ht s h) (tickFor_keeps hr ht n) t ht'

/-! ### What each shared operation may change -/

theorem unitTick_frame (s : State) : unitTick id s =
    { s with cnt := (unitTick id s).cnt, ucnt := (unitTick id s).ucnt, draws := (unitTick id s).draws } := by
  unfold unitTick countUnit drawUnits
  split_ifs <;> rfl

theorem timerStart_ok {n : Nat} {s u : State} (h : timerStart n s = .ok u) :
    u = { s with reload := BitVec.ofNat 24 (n - 1), cnt := 0 } := by
  unfold timerStart at h
  split_ifs at h
  cases h
  rfl

theorem startUnits_ok {n : Nat} {s u : State} (h : startUnits n s = .ok u) :
    u = { s with ucnt := n, reload := u.reload, cnt := u.cnt } := by
  unfold startUnits at h
  split_ifs at h
  · cases h; rfl
  · rw [timerStart_ok h]; rfl

theorem outTick_frame {r : Row} {s u : State} (h : outTick r s = .ok u) :
    u = { s with
          pout := u.pout, sport := u.sport, ucnt := r.dwell, reload := u.reload, cnt := u.cnt, ph := u.ph
          history := s.history ++ [.outWrite (s.tick + 1) r.po (r.so &&& s.cfg.smask)] } := by
  unfold outTick at h
  split at h
  · rename_i w hw
    cases h
    rw [startUnits_ok hw]
    rfl
  · cases h

theorem nextTick_frame {r : Row} {s u : State} (h : nextTick r s = .ok u) :
    u = { s with
          cur := u.cur, ph := .out, cnt := nextCount s
          history := s.history ++ [.transition (s.tick + 1) s.cur u.cur] } := by
  unfold nextTick at h
  split at h
  · cases h; rfl
  · cases h

end Sys2Proof.Laws
end

