-- ==== Sys2Proof/Laws/PerInstr.lean ====
section
/-! SUPPORT. Per operation: its word has the width of its format (30_encoding.md R69). -/

namespace Sys2Proof.Laws.EncodedWidth

/-- The word of a well-formed operation fits its format. -/
def Statement (i : Instr) : Prop :=
  ∀ (c : Config) (f : Format) (w : Nat), i.wf c = true → encode c i = some (f, w) → w < 2 ^ f.width c

/-- An operation without an encoding (30_encoding.md R71). -/
theorem of_pseudo {i : Instr} (h : ∀ c, encode c i = none) : Statement i := by
  intro c f w _ he
  rw [h c] at he
  cases he

theorem state (r : Row) : Statement (.state r) := by
  intro c f w hw he
  cases he
  exact encodeRow_lt c r (by simpa [Instr.wf] using hw)

theorem out : Statement .out := by intro c f w _ he; cases he; exact (by decide : Phase.code .out < 2 ^ 2)

theorem dwell : Statement .dwell := by intro c f w _ he; cases he; exact (by decide : Phase.code .dwell < 2 ^ 2)

theorem sample : Statement .sample := by intro c f w _ he; cases he; exact (by decide : Phase.code .sample < 2 ^ 2)

theorem next : Statement .next := by intro c f w _ he; cases he; exact (by decide : Phase.code .next < 2 ^ 2)

theorem tmrStart (n : Nat) : Statement (.tmrStart n) := by
  intro c f w hw he
  cases he
  have : 1 ≤ n ∧ n ≤ 2 ^ 24 := by simpa [Instr.wf] using hw
  show 1 + 2 * (n - 1) < 2 ^ 25
  omega

theorem tmrTick : Statement .tmrTick := by intro c f w _ he; cases he; exact Nat.two_pow_pos _

theorem step (s c : Nat) : Statement (.step s c) := of_pseudo fun _ => rfl

theorem outputsFor (s : Nat) : Statement (.outputsFor s) := of_pseudo fun _ => rfl

theorem run : Statement .run := of_pseudo fun _ => rfl

theorem waitTicks (n : Nat) : Statement (.waitTicks n) := of_pseudo fun _ => rfl

theorem waitUnits (n : Nat) : Statement (.waitUnits n) := of_pseudo fun _ => rfl

theorem readInputs : Statement .readInputs := of_pseudo fun _ => rfl

theorem writeOutputs (port : Port) (bits mask : Nat) : Statement (.writeOutputs port bits mask) := of_pseudo fun _ => rfl

end Sys2Proof.Laws.EncodedWidth
end

