-- ==== Sys2Proof/Tests/Slice0.lean ====
section
/-! SUPPORT. Tests. Expected results are the vectors of spec/95_test_vectors.md (their ids stand in the comments) and the
tables of the rules; no expected value was taken from the model. The witnesses at the end show, for each statement with
hypotheses, a concrete case that meets them. -/

namespace Sys2Proof.Tests

open Sys2Proof.Machine

/-! ### Configurations and states -/

/-- EX9 (95_test_vectors.md section 3), its row words as printed there. -/
def ex9 : Config :=
  { Config.reference with
    rom := [(0, 0x1111110000640221), (1, 0x2244222200320222), (2, 0x333332320064020C), (3, 0x4444000000320214),
            (4, 0x5554555500640824), (5, 0x6666666600190224), (6, 0x7777777700190024), (7, 0x8888888800190224),
            (8, 0x0200020000190024)] }

/-- P1 (section 4). -/
def p1 : Config :=
  { Config.reference with
    k := 1, nstates := 2, pw := 1, sportW := 4, smask := 0x4, sensW := 2, dwellW := 4, unitTicks := 3
    rom := [(0, 0x01241), (1, 0x00100)] }

/-- P4 (section 4). -/
def p4 : Config :=
  { Config.reference with
    k := 2, nstates := 3, pw := 2, dwellW := 4, unitTicks := 2
    rom := [(0, 0x02101001), (1, 0x22220FF2), (2, 0x100012A3)] }

/-- An environment with a constant sensor value. -/
def steady (v : Nat) : Env := { sens := [], sensRest := some v, rst := [] }

/-- An environment that asserts RST at one edge. -/
def resetAt (e : Nat) : Env := { sens := [], sensRest := some 0, rst := [e] }

/-- EX9 before tick 1, as in vector O1. -/
def s9 : State := State.launch ex9 0 0xF5 (steady 0)

/-- P1 before tick 1, with its sensors. -/
def s1 : State := State.launch p1 0 0xB { sens := [(8, 0x0), (14, 0x1)], sensRest := some 0x3, rst := [] }

/-- P4 before tick 1. -/
def s4 : State := State.launch p4 0 0x55 (steady 0xEE)

/-- A part of a next state. -/
def seen {α : Type} (f : State → α) : Host.Outcome State Fault Refusal → Option α
  | .next s => some (f s)
  | .fault _ => none
  | .refused _ => none

theorem quiet_steady {s : State} (h : s.env.rst = []) (n : Nat) : QuietFor s n := by
  intro i _
  simp [rstAt, h]

/-! ### Well-formedness: each check refuses an ill-formed term -/

/-- WF2 (X6): seven entries. -/
theorem test_row_wf2_refused :
    (Instr.state ⟨0, 0, 0, [0, 0, 0, 0, 0, 0, 0]⟩).wf Config.reference = false ∧
    Row.failure Config.reference ⟨0, 0, 0, [0, 0, 0, 0, 0, 0, 0]⟩ = some .wf2 := by decide

/-- WF4 (X7): each field one above its range. -/
theorem test_row_wf4_refused :
    Row.failure Config.reference ⟨0, 0, 65536, [0, 0, 0, 0, 0, 0, 0, 0]⟩ = some .wf4 ∧
    Row.failure Config.reference ⟨0x40, 0, 0, [0, 0, 0, 0, 0, 0, 0, 0]⟩ = some .wf4 ∧
    Row.failure Config.reference ⟨0, 0x100, 0, [0, 0, 0, 0, 0, 0, 0, 0]⟩ = some .wf4 := by decide

/-- WF1 (E6): a dangling target. -/
theorem test_row_wf1_refused :
    Row.failure Config.reference ⟨0, 0, 0, [0, 0, 0, 0, 0, 0, 0, 9]⟩ = some .wf1 := by decide

/-- Operands one outside their domain. -/
theorem test_operands_refused :
    (Instr.tmrStart 0).wf ex9 = false ∧ (Instr.tmrStart 16777217).wf ex9 = false ∧
    (Instr.waitTicks 0).wf ex9 = false ∧ (Instr.waitTicks 16777217).wf ex9 = false ∧
    (Instr.waitUnits 65536).wf ex9 = false ∧ (Instr.step 9 0).wf ex9 = false ∧ (Instr.step 0 8).wf ex9 = false ∧
    (Instr.outputsFor 9).wf ex9 = false ∧ (Instr.writeOutputs .pout 0x40 0).wf ex9 = false ∧
    (Instr.writeOutputs .sport 0 0x100).wf ex9 = false := by decide

/-- WF3 (X4), WF5 (X5), a missing row (WF2), padding, and a parameter of R5. -/
theorem test_config_refused :
    configFailure { ex9 with init := 9 } = some (.tableInvalid .wf3 9) ∧
    configFailure { ex9 with unitTicks := 0 } = some (.tableInvalid .wf5 0) ∧
    configFailure { ex9 with unitTicks := 16777217 } = some (.tableInvalid .wf5 16777217) ∧
    configFailure Config.reference = some (.tableInvalid .wf2 0) ∧
    configFailure { ex9 with rom := Memory.write ex9.rom 3 0x44440000003202D4 } = some (.tableInvalid .padding 3) ∧
    configFailure { ex9 with rom := Memory.write ex9.rom 3 0x9444000000320214 } = some (.tableInvalid .wf1 3) ∧
    configFailure { ex9 with smask := 0 } = some (.tableInvalid .param 0) := by decide

/-- The example tables are well formed. -/
theorem test_configs_valid : Valid ex9 ∧ Valid p1 ∧ Valid p4 := by decide

/-- S12, X8: EX9 is reachable and connected; with row 5 looping it is still well formed, but not reachable. -/
theorem test_reachable :
    Reachable ex9 = true ∧ Connected ex9 = true ∧
    Valid { ex9 with rom := Memory.write ex9.rom 5 0x5555555500190224 } ∧
    Reachable { ex9 with rom := Memory.write ex9.rom 5 0x5555555500190224 } = false := by decide

/-! ### Decoding -/

/-- E1 and E4, STATE. -/
theorem test_decode_state :
    decodeTableWord 64 0x1111110000640221 = some (.state ⟨0x21, 0x02, 100, [0, 0, 1, 1, 1, 1, 1, 1]⟩) ∧
    decodeTableWord 64 0x5554555500640824 = some (.state ⟨0x24, 0x08, 100, [5, 5, 5, 5, 4, 5, 5, 5]⟩) := by decide

/-- E3 and E7: every field at its largest, and unequal entries. -/
theorem test_decode_state_bounds :
    decode ex9 .row 0x88888888FFFFFF3F = .ok (.state ⟨0x3F, 0xFF, 65535, [8, 8, 8, 8, 8, 8, 8, 8]⟩) ∧
    decode ex9 .row 0x0200020000190024 = .ok (.state ⟨0x24, 0x00, 25, [0, 0, 2, 0, 0, 0, 2, 0]⟩) := by decide

/-- E5, E6: refused by name. -/
theorem test_decode_refused :
    decode ex9 .row 0x1111110000640261 = .error (.padding .po) ∧
    decode ex9 .row 0x9111110000640221 = .error .targetRange ∧
    decode ex9 .row 0x10000000000000000 = .error .tooWide ∧
    decode ex9 .tcmd 2 = .error .operandNotZero ∧ decode ex9 .phase 4 = .error .tooWide ∧
    decodeTableWord 16 0 = none := by decide

/-- The small layouts of section 2.1: 20 and 32 bits, and P4's rows. -/
theorem test_decode_small_layouts :
    p1.rowW = 20 ∧ decode p1 .row 0x01241 = .ok (.state ⟨1, 4, 2, [1, 0]⟩) ∧
    p4.rowW = 32 ∧ decode p4 .row 0x22220FF2 = .ok (.state ⟨2, 0xFF, 0, [2, 2, 2, 2]⟩) ∧
    decode p4 .row 0x02101001 = .ok (.state ⟨1, 0x00, 1, [0, 1, 2, 0]⟩) := by decide

/-- R64: the four phase codes. -/
theorem test_decode_phases :
    decodeTableWord 8 0b00 = some .out ∧ decodeTableWord 8 0b01 = some .dwell ∧
    decodeTableWord 8 0b10 = some .sample ∧ decodeTableWord 8 0b11 = some .next := by decide

/-- R65: TSTART and the reload operand (its place above TSTART: log 15). -/
theorem test_decode_tcmd :
    decode ex9 .tcmd 0 = .ok .tmrTick ∧ decode ex9 .tcmd 1 = .ok (.tmrStart 1) ∧
    decode ex9 .tcmd (2 * 0x0C34FF + 1) = .ok (.tmrStart 800000) ∧
    decode ex9 .tcmd (2 * 0xFFFFFF + 1) = .ok (.tmrStart 16777216) := by decide

/-- R72: the bytes of E1, the image read back, and one that is a byte short (log 27). -/
theorem test_image :
    imageOf ex9 [0x1111110000640221] = [0x21, 0x02, 0x64, 0x00, 0x00, 0x11, 0x11, 0x11] ∧
    (loadImage { p4 with rom := [] }
        [0x01, 0x10, 0x10, 0x02, 0xF2, 0x0F, 0x22, 0x22, 0xA3, 0x12, 0x00, 0x10]).toOption = some p4 ∧
    (loadImage p4 [0x01, 0x10, 0x10, 0x02, 0xF2, 0x0F, 0x22, 0x22, 0xA3, 0x12, 0x00]).toOption = none := by decide

/-- R70: P1's source text, some of its numbers written with R8's 0b, gives P1, and a table is built from its rows. -/
theorem test_notation :
    readTable
        ".config K=1 NSTATES=2 PW=1 SPORT_W=4 SMASK=0x4 SENS_W=2 DWELL_W=4 UNIT_TICKS=3 INIT=On".toList
        [".state On  po=0b1 so=0x4 dwell=2 next=Off,On".toList, ".state Off po=0x0 so=0b0 dwell=0b01 next=On,On".toList]
      = .ok p1 ∧
    (numeral "0b2".toList).toOption = none ∧ (numeral "0b".toList).toOption = none ∧
    buildConfig { p1 with rom := [] } [⟨1, 4, 2, [1, 0]⟩, ⟨0, 0, 1, [0, 0]⟩] = .ok p1 ∧
    (buildConfig { p1 with rom := [] } [⟨1, 4, 2, [1, 0]⟩, ⟨0, 0, 1, [0, 2]⟩]).toOption = none := by decide

/-! ### The phases -/

/-- O2. -/
theorem test_out :
    seen (fun t => (t.pout, t.sport, t.ucnt, t.reload, t.cnt, t.ph))
        (exec .out { s9 with cur := 4, sport := 0xF7, pout := 0x22 }) =
      some (0x24, 0xFD, 100, 0x0C34FF, 0, .dwell) := by decide

/-- O4: a zero dwell; the timer free-runs. -/
theorem test_out_zero_dwell :
    seen (fun t => (t.pout, t.sport, t.ucnt, t.reload, t.cnt, t.ph)) (exec .out { s4 with cur := 1, reload := 1 }) =
      some (0x2, 0x5F, 0, 1, 1, .sample) := by decide

/-- O5, O7. -/
theorem test_dwell :
    seen (fun t => (t.cnt, t.ucnt, t.ph)) (exec .dwell { s9 with ph := .dwell, ucnt := 100, reload := 0x0C34FF }) =
      some (0x0C34FF, 100, .dwell) ∧
    seen (fun t => (t.cnt, t.ucnt, t.ph)) (exec .dwell { s9 with ph := .dwell, ucnt := 100, cnt := 1 }) =
      some (0, 99, .dwell) := by decide

/-- O8. -/
theorem test_dwell_last :
    seen (fun t => (t.cnt, t.ucnt, t.ph)) (exec .dwell { s9 with ph := .dwell, ucnt := 1, cnt := 1 }) =
      some (0, 0, .sample) := by decide

/-- O9: masked to three bits. -/
theorem test_sample :
    seen (fun t => (t.inp, t.ph)) (exec .sample { s9 with ph := .sample, env := steady 0xFA }) = some (2, .next) := by
  decide

/-- Input masking at K = 2 (section 2.2): 0xEE gives 2. -/
theorem test_sample_two_bits :
    seen (fun t => (t.inp, t.history)) (exec .sample { s4 with ph := .sample }) = some (2, [.sample 1 0xEE 2]) := by
  decide

/-- O11. -/
theorem test_next :
    seen (fun t => (t.cur, t.ph)) (exec .next { s9 with inp := 2, ph := .next }) = some (1, .out) := by decide

/-- O13, and the ports stay. -/
theorem test_next_home :
    seen (fun t => (t.cur, t.sport, t.history)) (exec .next { s9 with cur := 8, ph := .next, sport := 0xF5 }) =
      some (0, 0xF5, [.transition 1 8 0]) := by decide

/-- A row word under execution does what its phase does: O1 through STATE, and the same row in NEXT. -/
theorem test_state_row :
    seen (fun t => (t.pout, t.sport, t.ucnt, t.ph)) (exec (.state ⟨0x21, 0x02, 100, [0, 0, 1, 1, 1, 1, 1, 1]⟩) s9) =
      some (0x21, 0xF7, 100, .dwell) ∧
    seen (fun t => (t.cur, t.ph))
        (exec (.state ⟨0x21, 0x02, 100, [0, 0, 1, 1, 1, 1, 1, 1]⟩) { s9 with ph := .next, inp := 2 }) =
      some (1, .out) := by decide

/-- An ill-formed row is refused. -/
theorem test_state_row_refused :
    exec (.state ⟨0, 0, 0, [0, 0, 0, 0, 0, 0, 0, 9]⟩) s9 = .fault (.tableInvalid .wf1 0) :=
  rfl

/-! ### The pure functions and the loop -/

/-- S4, S6, S7, and the two faults. -/
theorem test_step_function :
    exec (.step 0 2) s9 = .next { s9 with ret := .ident 1 } ∧ exec (.step 4 4) s9 = .next { s9 with ret := .ident 4 } ∧
    exec (.step 8 6) s9 = .next { s9 with ret := .ident 2 } ∧
    exec (.step 0 8) s9 = .fault (.inputCodeRange 0 8) ∧ exec (.step 9 0) s9 = .fault (.stateRange 9) :=
  ⟨rfl, rfl, rfl, rfl, rfl⟩

/-- R85's example and its fault. -/
theorem test_outputs_for :
    exec (.outputsFor 4) s9 = .next { s9 with ret := .outputs 0x24 0x08 } ∧
    exec (.outputsFor 9) s9 = .fault (.stateRange 9) :=
  ⟨rfl, rfl⟩

/-- P1's first iteration: the state after tick 9. -/
theorem test_run_pass :
    seen (fun t => (t.tick, t.cur, t.ph, t.inp, t.ucnt, t.reload, t.cnt, t.pout, t.sport)) (exec .run s1) =
      some (9, 1, .out, 0, 0, 2, 1, 0x1, 0xF) := rfl

/-- P1's events of the first iteration. -/
theorem test_run_history :
    seen (fun t => t.history) (exec .run s1) = some [.outWrite 1 0x1 0x4, .sample 8 0x0 0, .transition 9 0 1] := by
  decide

/-- R90's items 3 to 7 (S4 to S7, S10, S11) in EX9. -/
theorem test_reference_properties :
    ([(0, 2), (0, 4), (4, 4), (8, 0), (0, 3), (1, 3), (2, 3), (3, 3), (0, 7), (2, 4)].map fun p =>
        (stepLookup ex9 p.1 p.2).toOption) = [some 1, some 1, some 4, some 0, some 1, some 2, some 3, some 0, some 1, some 3] := by
  decide

/-- P5: the longest gap between sampling instants of EX9. -/
theorem test_longest_gap : longestGap ex9 = 80000003 := by decide

/-! ### The timing primitive -/

/-- Section 2.4: TMR_START at both ends of its domain, an earlier count abandoned, and outside. -/
theorem test_tmr_start :
    seen (fun t => (t.reload, t.cnt)) (exec (.tmrStart 16777216) { s9 with cnt := 7 }) = some (0xFFFFFF, 0) ∧
    seen (fun t => (t.reload, t.cnt)) (exec (.tmrStart 1) { s9 with cnt := 7 }) = some (0, 0) ∧
    exec (.tmrStart 0) s9 = .fault (.ticksRange 0) ∧
    exec (.tmrStart 16777217) s9 = .fault (.ticksRange 16777217) :=
  ⟨by decide, by decide, rfl, rfl⟩

/-- T1, T3, T4, T6. -/
theorem test_tmr_tick :
    seen (·.cnt) (exec .tmrTick { s9 with reload := 5 }) = some 5 ∧
    seen (·.cnt) (exec .tmrTick { s9 with reload := 5, cnt := 1 }) = some 0 ∧
    seen (·.cnt) (exec .tmrTick s9) = some 0 ∧
    seen (·.cnt) (exec .tmrTick { s9 with cnt := 0xFFFFFF }) = some 0xFFFFFE := by decide

/-- T1 to T6: expire. -/
theorem test_expire :
    expire false { s9 with reload := 5 } = false ∧ expire false { s9 with reload := 5, cnt := 5 } = false ∧
    expire false { s9 with reload := 5, cnt := 1 } = true ∧ expire false s9 = true ∧
    expire false { s9 with reload := 0xFFFFFF } = false ∧ expire false { s9 with cnt := 0xFFFFFF } = false ∧
    expire true { s9 with reload := 5, cnt := 1 } = false := by decide

/-- W3: issued at tick 10, returns at tick 13. -/
theorem test_wait_ticks :
    seen (fun t => (t.tick, t.reload, t.cnt)) (exec (.waitTicks 3) { s9 with tick := 9 }) = some (13, 2, 0) := by
  decide

/-- W1, W5, W6, and U3's band. -/
theorem test_wait_ticks_bounds :
    seen (fun t => (t.tick, t.reload, t.cnt)) (exec (.waitTicks 1) { s9 with tick := 9 }) = some (11, 0, 0) ∧
    exec (.waitTicks 0) s9 = .fault (.ticksRange 0) ∧ exec (.waitTicks 16777217) s9 = .fault (.ticksRange 16777217) ∧
    exec (.waitTicks 16777186) { s9 with cfg := { ex9 with ticksMargin := 31 } } = .fault (.ticksRange 16777186) :=
  ⟨by decide, rfl, rfl, rfl⟩

/-- V3: started at tick 1, returns at tick 13. -/
theorem test_wait_units :
    seen (fun t => (t.tick, t.reload, t.cnt, t.ucnt)) (exec (.waitUnits 3) { s9 with cfg := { ex9 with unitTicks := 4 } }) =
      some (13, 3, 0, 0) := by decide

/-- V1: issued at tick 1, returns at tick 1, nothing started. And a count that a four-bit UCNT cannot hold (R107: sixteen units of
one tick; the free value leaves no trace but its draw). -/
theorem test_wait_units_bounds :
    seen (fun t => (t.tick, t.reload, t.cnt, t.ucnt)) (exec (.waitUnits 0) s9) = some (1, 0, 0, 0) ∧
    seen (fun t => (t.tick, t.reload, t.cnt, t.ucnt, t.draws))
        (exec (.waitUnits 16) { s1 with cfg := { p1 with unitTicks := 1 } }) = some (17, 0, 0, 0, 1) :=
  ⟨rfl, rfl⟩

/-! ### The boundary -/

/-- The whole SENS_W-bit value is returned. -/
theorem test_read_inputs :
    exec .readInputs { s9 with env := { sens := [(1, 0xFA)], sensRest := some 0, rst := [] } } =
      .next { s9 with env := { sens := [(1, 0xFA)], sensRest := some 0, rst := [] }, ret := .bits 0xFA } :=
  rfl

/-- M1, M2, M4. -/
theorem test_write_sport :
    seen (·.sport) (exec (.writeOutputs .sport 0x02 0x0A) { s9 with sport := 0xF5 }) = some 0xF7 ∧
    seen (·.sport) (exec (.writeOutputs .sport 0x08 0x0A) { s9 with sport := 0xF7 }) = some 0xFD ∧
    seen (·.sport) (exec (.writeOutputs .sport 0xFF 0x0A) { s9 with sport := 0x55 }) = some 0x5F := by decide

/-- M6, M7, and R140: at an edge with RST = 1 no port is written. -/
theorem test_write_pout :
    seen (·.sport) (exec (.writeOutputs .sport 0xFF 0x00) { s9 with sport := 0x00 }) = some 0x00 ∧
    seen (·.pout) (exec (.writeOutputs .pout 0x21 0x3F) { s9 with pout := 0x2A }) = some 0x21 ∧
    seen (fun t => (t.cur, t.pout)) (exec (.writeOutputs .pout 0x21 0x3F) { s9 with cur := 4, pout := 0x2A, env := resetAt 1 }) =
      some (0, 0x2A) := by decide

/-! ### Steps, reset, and the host's two questions -/

/-- X3: tick 1 of EX9 is vector O1. -/
theorem test_step_tick_one :
    seen (fun t => (t.pout, t.sport, t.ucnt, t.reload, t.cnt, t.ph, t.tick)) (step s9) =
      some (0x21, 0xF7, 100, 0x0C34FF, 0, .dwell, 1) := rfl

/-- X2: reset in a dwell; the ports keep their values. -/
theorem test_reset_in_dwell :
    seen (fun t => (t.cur, t.ph, t.inp, t.ucnt, t.reload, t.cnt, t.pout, t.sport))
        (step { s9 with cur := 4, ph := .dwell, ucnt := 37, cnt := 1234, reload := 0x0C34FF, pout := 0x24, sport := 0xFD,
                        env := resetAt 1 }) =
      some (0, .out, 0, 0, 0, 0, 0x24, 0xFD) := rfl

/-- With no table there is no run (R122). -/
theorem test_step_without_table :
    step State.reset = .fault (.tableInvalid .wf2 0) ∧ exec .tmrTick State.reset = .fault (.tableInvalid .wf2 0) :=
  ⟨rfl, rfl⟩

/-- U1: state identifier 9 in CUR gets no meaning, in any phase; reset leads on. -/
theorem test_cur_names_no_row :
    step { s9 with cur := 9, ph := .dwell } = .fault (.tableInvalid .identifier 9) ∧
    step { s9 with cur := 9, ph := .sample } = .fault (.tableInvalid .identifier 9) ∧
    seen (·.cur) (step { s9 with cur := 9, env := resetAt 1 }) = some 0 :=
  ⟨rfl, rfl, rfl⟩

/-- A row word placed for the first step: E1's outputs are driven. -/
theorem test_fetch_row :
    seen (fun t => (t.pout, t.sport, t.ucnt, t.ph)) (step (State.reset.withFetchWord 64 0x1111110000640221)) =
      some (0x21, 0x02, 100, .dwell) := by decide

/-- A phase word placed for the first step: SAMPLE and NEXT run. -/
theorem test_fetch_phase :
    seen (fun t => t.ph) (step (State.reset.withFetchWord 8 3)) = some .out ∧
    seen (fun t => t.ph) (step ({ State.reset with env := steady 0 }.withFetchWord 8 2)) = some .next := by decide

/-! ### Witnesses: each statement's hypotheses can be met -/

/-- A dwell state of EX9: state 4, two units to go, the timer just expired. -/
def d9 : State :=
  { s9 with cur := 4, ph := .dwell, ucnt := 2, reload := 0x0C34FF, pout := 0x24, sport := 0xFD }

/-- The all-ones row E3. -/
def rowE3 : Row := ⟨0x3F, 0xFF, 65535, [8, 8, 8, 8, 8, 8, 8, 8]⟩

/-- Row 4 of EX9. -/
def row4 : Row := ⟨0x24, 0x08, 100, [5, 5, 5, 5, 4, 5, 5, 5]⟩

theorem witness_DecodeInvertsEncode :
    ((Instr.state rowE3).wf ex9 = true ∧ encode ex9 (.state rowE3) = some (.row, 0x88888888FFFFFF3F)) ∧
    ((Instr.tmrStart 16777216).wf ex9 = true ∧
      encode ex9 (.tmrStart 16777216) = some (.tcmd, 2 * 0xFFFFFF + 1)) ∧
    (Instr.next.wf ex9 = true ∧ encode ex9 .next = some (.phase, 3)) := by decide

theorem witness_EncodeInvertsDecode :
    decode ex9 .row 0x88888888FFFFFF3F = .ok (.state rowE3) ∧
    decode ex9 .tcmd (2 * 0xFFFFFF + 1) = .ok (.tmrStart 16777216) ∧ decode ex9 .phase 3 = .ok .next := by decide

theorem witness_RowFieldsStandInTheirContainers : rowE3.WF ex9 ∧ rowE3.next[7]? = some 8 := by decide

theorem witness_TableImageReadsBack :
    (∀ w ∈ [0, 2 ^ 64 - 1], w < 2 ^ ex9.rowW) ∧ [0, 2 ^ 64 - 1][1]? = some (2 ^ 64 - 1) ∧ 7 < (ex9.rowW + 7) / 8 := by
  decide

theorem witness_TmrStartLoadsReloadAndClearsCount :
    Valid s9.cfg ∧ rstNow s9 = false ∧ (1 ≤ 1 ∧ 1 ≤ 2 ^ 24) ∧ (1 ≤ 2 ^ 24 ∧ 2 ^ 24 ≤ 2 ^ 24) ∧ 2 ^ 24 < 2 ^ 24 + 1 := by decide

theorem witness_TmrTickCountsDownWithPeriodReloadPlusOne :
    (Valid s9.cfg ∧ rstNow s9 = false ∧ s9.cnt = 0) ∧ (rstNow { s9 with cnt := 1 } = false ∧ ({ s9 with cnt := 1 } : State).cnt ≠ 0) ∧
    ({ s9 with reload := 0xFFFFFF, cnt := 0xFFFFFF } : State).cnt ≤ 0xFFFFFF ∧ s9.cnt ≤ s9.reload ∧
    (rstNow d9 = false ∧ (∃ t, step d9 = .next t) ∧ d9.ph ≠ .out) ∧
    (rstNow { s4 with cur := 1 } = false ∧ (∃ t, step { s4 with cur := 1 } = .next t) ∧
      rowAt p4 1 = .ok ⟨2, 0xFF, 0, [2, 2, 2, 2]⟩) :=
  ⟨by decide, by decide, by decide, by decide, ⟨by decide, ⟨_, rfl⟩, by decide⟩, ⟨by decide, ⟨_, rfl⟩, by decide⟩⟩

theorem witness_ExpireIsTheZeroOfTheCount : Valid s9.cfg ∧ rstNow s9 = false := by decide

theorem witness_WaitTicksLastsExactlyN :
    Valid s9.cfg ∧ (1 ≤ 1 ∧ 1 + s9.cfg.ticksMargin ≤ 2 ^ 24 ∧ QuietFor s9 (1 + 1) ∧ 0 < 1) ∧
    (1 ≤ 2 ^ 24 ∧ 2 ^ 24 + s9.cfg.ticksMargin ≤ 2 ^ 24 ∧ QuietFor s9 (2 ^ 24 + 1) ∧ 2 ^ 24 - 1 < 2 ^ 24) :=
  ⟨by decide, ⟨by decide, by decide, quiet_steady rfl _, by decide⟩, ⟨by decide, by decide, quiet_steady rfl _, by decide⟩⟩

theorem witness_WaitTicksFaultsOutsideItsDomain :
    Valid s9.cfg ∧ rstNow s9 = false ∧ ((0 : Nat) = 0) ∧ 2 ^ 24 < 2 ^ 24 + 1 + s9.cfg.ticksMargin ∧
    (Valid { ex9 with ticksMargin := 31 } ∧ 2 ^ 24 < 16777186 + ({ ex9 with ticksMargin := 31 } : Config).ticksMargin) := by
  decide

theorem witness_WaitUnitsLastsExactlyNUnits :
    (Valid s9.cfg ∧ 0 < 2 ^ s9.cfg.dwellW ∧ rstNow s9 = false) ∧
    (65535 < 2 ^ s9.cfg.dwellW ∧ 1 ≤ 65535 ∧ QuietFor s9 (65535 * s9.cfg.unitTicks + 1)) ∧
    (Valid { ex9 with unitTicks := 1 } ∧ Valid { ex9 with unitTicks := 2 ^ 24 }) :=
  ⟨by decide, ⟨by decide, by decide, quiet_steady rfl _⟩, by decide⟩

theorem witness_WaitUnitsBeyondTheWidthOfUcntLastsAsLong :
    Valid s9.cfg ∧ 2 ^ s9.cfg.dwellW ≤ 65536 ∧ QuietFor s9 (65536 * s9.cfg.unitTicks + 1) :=
  ⟨by decide, by decide, quiet_steady rfl _⟩

theorem witness_OutDrivesPortsAndLoadsDwell :
    (Valid s4.cfg ∧ rstNow s4 = false ∧ rowAt p4 1 = .ok ⟨2, 0xFF, 0, [2, 2, 2, 2]⟩) ∧
    (Valid d9.cfg ∧ rstNow d9 = false ∧ rowAt d9.cfg d9.cur = .ok row4 ∧ row4.dwell ≠ 0) := by decide

theorem witness_DwellTickCountsUnits :
    (Valid d9.cfg ∧ d9.cur < d9.cfg.nstates ∧ rstNow d9 = false ∧ expire false d9 = false) ∧
    (expire false { d9 with cnt := 1, ucnt := 1 } = true) ∧ (expire false { d9 with cnt := 1 } = true ∧ 2 ≤ d9.ucnt) ∧
    (expire false { d9 with cnt := 1, ucnt := 0 } = true) := by decide

theorem witness_DwellLastsExactlyItsUnits :
    (Valid d9.cfg ∧ d9.cur < d9.cfg.nstates) ∧ d9.ph = .dwell ∧ d9.ucnt = 2 ∧ 1 ≤ 2 ∧ d9.cnt = 0 ∧ d9.reload.toNat + 1 = d9.cfg.unitTicks ∧
    QuietFor d9 (2 * d9.cfg.unitTicks) ∧ 2 * d9.cfg.unitTicks - 1 < 2 * d9.cfg.unitTicks :=
  ⟨by decide, rfl, rfl, by decide, rfl, by decide, quiet_steady rfl _, by decide⟩

theorem witness_SampleLatchesTheLowBits :
    Valid s9.cfg ∧ s9.cur < s9.cfg.nstates ∧ rstNow { s9 with ph := .sample } = false := by decide

theorem witness_NextFollowsTheTable :
    Valid d9.cfg ∧ rstNow d9 = false ∧ rowAt d9.cfg d9.cur = .ok row4 ∧ 7 < 2 ^ d9.cfg.k ∧ row4.next[7]? = some 5 := by decide

theorem witness_PhasesStopByNameWhereNoRunGoes :
    Valid d9.cfg ∧ d9.cur < d9.cfg.nstates ∧ rstNow { d9 with ph := .next, inp := 8 } = false ∧ 2 ^ d9.cfg.k ≤ 8 ∧
    rowE3.WF d9.cfg ∧ ({ d9 with ph := .next, inp := 8 } : State).ph = .next := by decide

theorem witness_CurThatNamesNoRowHasNoMeaning :
    Valid ex9 ∧ ex9.nstates ≤ 9 ∧ rstNow { d9 with cur := 9 } = false ∧ rstNow { d9 with cur := 9, env := resetAt 1 } = true := by
  decide

theorem witness_StepWithBothOperandsOutFaultsByTheLowerNumber :
    Valid s9.cfg ∧ s9.cfg.nstates ≤ 9 ∧ 2 ^ s9.cfg.k ≤ 8 := by decide

theorem witness_StepIsATotalTableLookup :
    Valid ex9 ∧ (8 < ex9.nstates ∧ 7 < 2 ^ ex9.k) ∧ (8 < ex9.nstates ∧ 2 ^ ex9.k ≤ 8) ∧ (ex9.nstates ≤ 9 ∧ 7 < 2 ^ ex9.k) ∧ s9.cfg = ex9 := by
  decide

theorem witness_OutputsForReadsTheRow : Valid ex9 ∧ 8 < ex9.nstates ∧ ex9.nstates ≤ 9 ∧ s9.cfg = ex9 := by decide

theorem witness_ReadInputsReturnsTheBoundary : Valid s9.cfg ∧ scripted [(1, 0xFA)] (s9.edges + 1) = some 0xFA := by decide

theorem witness_WriteOutputsMasksThePort : Valid s9.cfg ∧ rstNow s9 = false := by decide

theorem witness_StateRowRunsThePhaseOfPh :
    (Valid s9.cfg ∧ s9.cur < s9.cfg.nstates ∧ rstNow s9 = false ∧ rowE3.WF s9.cfg ∧ s9.inp < 2 ^ s9.cfg.k) ∧
    s9.ph = .out ∧ d9.ph = .dwell ∧ ({ s9 with ph := .sample } : State).ph = .sample ∧
    (({ s9 with ph := .next, inp := 7 } : State).ph = .next ∧ 7 < 2 ^ s9.cfg.k) ∧
    Row.failure s9.cfg ⟨0, 0, 65536, [0, 0, 0, 0, 0, 0, 0, 0]⟩ = some .wf4 := by decide

theorem witness_RunPassFollowsTheLoop :
    (Valid s9.cfg ∧ rowAt s9.cfg s9.cur = .ok ⟨0x21, 0x02, 100, [0, 0, 1, 1, 1, 1, 1, 1]⟩ ∧
      QuietFor s9 (100 * s9.cfg.unitTicks + 3)) ∧
    (Valid s4.cfg ∧ rowAt s4.cfg ({ s4 with cur := 1 } : State).cur = .ok ⟨2, 0xFF, 0, [2, 2, 2, 2]⟩ ∧
      QuietFor { s4 with cur := 1 } (0 * s4.cfg.unitTicks + 3)) :=
  ⟨⟨by decide, by decide, quiet_steady rfl _⟩, ⟨by decide, by decide, quiet_steady rfl _⟩⟩

theorem witness_ClockedPhasesImplementRun :
    Valid s9.cfg ∧ rowAt s9.cfg s9.cur = .ok ⟨0x21, 0x02, 100, [0, 0, 1, 1, 1, 1, 1, 1]⟩ ∧ s9.ph = .out ∧
    QuietFor s9 (100 * s9.cfg.unitTicks + 3) :=
  ⟨by decide, by decide, rfl, quiet_steady rfl _⟩

theorem witness_StepRunsTheDecodedOperation :
    Valid d9.cfg ∧ decode d9.cfg .phase (Phase.code d9.ph) = .ok .dwell ∧ d9.cur < d9.cfg.nstates ∧
    Memory.read d9.cfg.rom d9.cur = some 0x5554555500640824 ∧
    decode d9.cfg .row 0x5554555500640824 = .ok (.state row4) := by decide

theorem witness_InvalidConfigurationHasNoRun : ¬ Valid State.reset.cfg := by decide

theorem witness_BuiltConfigurationHoldsItsRows :
    buildConfig { p1 with rom := [] } [⟨1, 4, 2, [1, 0]⟩, ⟨0, 0, 1, [0, 0]⟩] = .ok p1 ∧
    ([⟨1, 4, 2, [1, 0]⟩, ⟨0, 0, 1, [0, 0]⟩] : List Row)[1]? = some ⟨0, 0, 1, [0, 0]⟩ := by decide

/-- Input codes that lead EX9 from INIT to each of its states (section 3). -/
theorem ex9_paths : ∀ st, st < ex9.nstates → ∃ codes, follow ex9 ex9.init codes = some st := by
  have h : ∀ st : Fin 9, follow ex9 ex9.init
      ([[], [2], [2, 0], [2, 0, 1], [2, 4], [2, 4, 0], [2, 4, 0, 0], [2, 4, 0, 0, 0], [2, 4, 0, 0, 0, 0]][st]) =
        some st.val := by decide
  exact fun st hs => ⟨_, h ⟨st, hs⟩⟩

theorem witness_ReachableStatesHaveAPath :
    (Reachable ex9 = true ∧ 8 < ex9.nstates) ∧ Valid ex9 ∧
    ∀ st, st < ex9.nstates → ∃ codes, follow ex9 ex9.init codes = some st :=
  ⟨by decide, by decide, ex9_paths⟩

theorem witness_ConnectedMeansATransitionBack : Valid ex9 ∧ Connected ex9 = true := by decide

theorem witness_ResetWinsAtAnyEdge :
    rstNow { d9 with env := resetAt 1 } = true ∧ Valid d9.cfg ∧ stepLookup d9.cfg 8 7 = .ok 0 ∧
    stepLookup d9.cfg 9 7 = .error (.stateRange 9) ∧ outputsLookup d9.cfg 4 = .ok (0x24, 0x08) ∧
    outputsLookup d9.cfg 9 = .error (.stateRange 9) := by decide

/-- The first edge of each operation, and the last: of a wait of 6 ticks, of 2 units of 3 ticks, of 16 units (more than UCNT
holds) and of a pass of P1's row 0. -/
theorem witness_ResetAbandonsAWait :
    Valid s1.cfg ∧ (QuietFor { s1 with env := resetAt 1 } 0 ∧ rstAt (resetAt 1) (s1.edges + 1 + 0) = true) ∧
    (QuietFor { s1 with env := resetAt 7 } 6 ∧ rstAt (resetAt 7) (s1.edges + 1 + 6) = true) ∧
    (QuietFor { s1 with env := resetAt 9 } 8 ∧ rstAt (resetAt 9) (s1.edges + 1 + 8) = true) ∧
    (1 ≤ 6 ∧ 6 + s1.cfg.ticksMargin ≤ 2 ^ 24 ∧ 6 < 6 + 1) ∧
    (6 < 2 * s1.cfg.unitTicks + 1 ∧ 0 < 0 * s1.cfg.unitTicks + 1) ∧
    (2 ^ s1.cfg.dwellW ≤ 16 ∧ 6 < 16 * s1.cfg.unitTicks + 1) ∧
    (rowAt s1.cfg s1.cur = .ok ⟨1, 4, 2, [1, 0]⟩ ∧ 8 < 2 * s1.cfg.unitTicks + 3) := by
  have h : ∀ e, ∀ i < e, rstAt (resetAt (e + 1)) (1 + i) = false := by
    intro e i hi
    simp only [rstAt, resetAt, List.mem_singleton, decide_eq_false_iff_not]
    omega
  exact ⟨by decide, ⟨fun i hi => absurd hi (by omega), by decide⟩, ⟨h 6, by decide⟩, ⟨h 8, by decide⟩, by decide, by decide, by decide,
    by decide⟩

theorem ex9_row4 {r : Row} (h : rowAt d9.cfg d9.cur = .ok r) : r = row4 := by
  rw [show rowAt d9.cfg d9.cur = .ok row4 by decide] at h
  cases h
  rfl

theorem d9_range : InRange d9 :=
  ⟨by decide, by decide, by decide, by decide, by decide, by decide, by decide⟩

/-- The invariant in the middle of a dwell. -/
theorem d9_inv : Inv d9 where
  valid := by decide
  range := d9_range
  count := by decide
  dwelling := fun _ r h => by rw [ex9_row4 h]; decide
  idle := fun h => absurd rfl h
  moore := fun _ r h => by rw [ex9_row4 h]; decide

theorem d9_lag : LagInv d9 where
  lag := fun h => nomatch h
  last := fun _ _ _ _ h => nomatch h

theorem witness_EveryStepKeepsTheInvariant : Inv d9 ∧ ∃ t, step d9 = .next t := ⟨d9_inv, _, rfl⟩

theorem witness_InvariantHoldsAtLaunch : Valid ex9 ∧ Memory.wf ex9.rom = true ∧ 0x3F < 2 ^ ex9.pw ∧ 0xFF < 2 ^ ex9.sportW := by
  decide

theorem witness_EveryStepKeepsRegistersInRange : InRange d9 ∧ ∃ t, step d9 = .next t := ⟨d9_range, _, rfl⟩

theorem witness_EveryTickHasItsStep :
    (Valid d9.cfg ∧ InRange d9) ∧
    (Valid ex9 ∧ Memory.wf ex9.rom = true ∧ 0x3F < 2 ^ ex9.pw ∧ 0xFF < 2 ^ ex9.sportW) :=
  ⟨⟨by decide, d9_range⟩, by decide⟩

theorem witness_EveryIterationEnds :
    Inv d9 ∧ rowAt d9.cfg d9.cur = .ok row4 ∧ QuietFor d9 (row4.dwell * d9.cfg.unitTicks + 3) :=
  ⟨d9_inv, by decide, quiet_steady rfl _⟩

theorem witness_SamplingInstantsAreNoFurtherApartThanTheLongestGap :
    Valid ex9 ∧ InRange { d9 with ph := .next, inp := 7, ucnt := 0 } ∧
    QuietFor { d9 with ph := .next, inp := 7, ucnt := 0 } (longestGap ex9) :=
  ⟨by decide, ⟨by decide, by decide, by decide, by decide, by decide, by decide, by decide⟩, quiet_steady rfl _⟩

theorem witness_OutputsAnswerTwoTicksAfterTheSample :
    Valid ex9 ∧ InRange { d9 with ph := .sample, ucnt := 0 } ∧ QuietFor { d9 with ph := .sample, ucnt := 0 } 3 ∧
    stepLookup ex9 4 (sensAt ex9 (steady 0) 1 % 2 ^ ex9.k) = .ok 5 ∧
    rowAt ex9 5 = .ok ⟨0x24, 0x02, 25, [6, 6, 6, 6, 6, 6, 6, 6]⟩ :=
  ⟨by decide, ⟨by decide, by decide, by decide, by decide, by decide, by decide, by decide⟩, quiet_steady rfl _,
    by decide, by decide⟩

/-- P1 at two unit lengths, from different timers, with the same code. -/
theorem witness_PassesDoNotDependOnTickCounts :
    Valid p1 ∧ Valid { p1 with unitTicks := 1 } ∧ rowAt p1 0 = .ok ⟨1, 4, 2, [1, 0]⟩ ∧
    QuietFor s1 (2 * 3 + 3) ∧ QuietFor { s1 with cfg := { p1 with unitTicks := 1 }, cnt := 2, env := steady 0 } (2 * 1 + 3) ∧
    (∃ t, exec .run s1 = .next t ∧ t.inp = 0) ∧
    ∃ t, exec .run { s1 with cfg := { p1 with unitTicks := 1 }, cnt := 2, env := steady 0 } = .next t ∧ t.inp = 0 :=
  ⟨by decide, by decide, by decide, quiet_steady rfl _, quiet_steady rfl _, ⟨_, rfl, rfl⟩, ⟨_, rfl, rfl⟩⟩

theorem witness_ForeignPortBitsNeverChange : ∃ t, runTicks 2 s9 = .next t := ⟨_, rfl⟩

/-- One state in each phase. -/
theorem witness_RegistersChangeOnlyInTheirPhase :
    (rstNow s9 = false ∧ s9.ph = .out ∧ ∃ t, step s9 = .next t) ∧
    (rstNow d9 = false ∧ d9.ph = .dwell ∧ ∃ t, step d9 = .next t) ∧
    (rstNow { s9 with ph := .sample } = false ∧ ∃ t, step { s9 with ph := .sample } = .next t) ∧
    (rstNow { s9 with ph := .next } = false ∧ ∃ t, step { s9 with ph := .next } = .next t) :=
  ⟨⟨by decide, rfl, _, rfl⟩, ⟨by decide, rfl, _, rfl⟩, ⟨by decide, _, rfl⟩, ⟨by decide, _, rfl⟩⟩

theorem witness_NoOperationWritesTheTable :
    (∃ t, exec .out s9 = .next t) ∧ (∃ t, exec .run s1 = .next t) ∧ ∃ t, exec (.writeOutputs .pout 0x21 0x3F) s9 = .next t :=
  ⟨⟨_, rfl⟩, ⟨_, rfl⟩, ⟨_, rfl⟩⟩

theorem witness_PortsAndHistoryFrame :
    (∃ t, exec .next { s9 with ph := .next } = .next t) ∧ (∃ t, exec (.waitTicks 3) s9 = .next t) ∧
    ∃ t, exec (.step 8 7) s9 = .next t :=
  ⟨⟨_, rfl⟩, ⟨_, rfl⟩, ⟨_, rfl⟩⟩

/-- Two states that differ in IN, the timer, the sensors and the history. -/
theorem witness_OutputsDependOnTheStateAlone :
    (∃ t, step s9 = .next t) ∧
    (∃ t, step { s9 with inp := 7, cnt := 9, reload := 9, env := steady 7, history := [.sample 1 7 7] } = .next t) ∧
    rstNow { s9 with env := steady 7 } = rstNow s9 :=
  ⟨⟨_, rfl⟩, ⟨_, rfl⟩, by decide⟩

theorem witness_SensorsAreReadOnlyInSample :
    d9.ph ≠ .sample ∧ rstAt (steady 7) (d9.edges + 1) = rstNow d9 ∧ ∃ t, step d9 = .next t :=
  ⟨by decide, by decide, _, rfl⟩

/-- 0xFA and 0x02 agree on three bits. -/
theorem witness_HighSensorBitsNeverMatter :
    ({ s9 with ph := .sample, env := steady 0xFA } : State).ph = .sample ∧
    rstAt (steady 0x02) 1 = rstNow { s9 with ph := .sample, env := steady 0xFA } ∧
    sensAt ex9 (steady 0x02) 1 % 2 ^ ex9.k = sensAt ex9 (steady 0xFA) 1 % 2 ^ ex9.k ∧
    ∃ t, step { s9 with ph := .sample, env := steady 0xFA } = .next t :=
  ⟨rfl, by decide, by decide, _, rfl⟩

theorem witness_HistoryIsWrittenNeverRead : ∃ t, step s9 = .next t := ⟨_, rfl⟩

/-- A history that holds an output of row 4 and the transition that led there. -/
theorem witness_HistoryTellsOnlyOfTheTable :
    WritesAreRows { d9 with history := [.transition 9 1 4, .outWrite 10 0x24 0x08] } ∧
    MovesAreTable { d9 with history := [.transition 9 1 4, .outWrite 10 0x24 0x08] } ∧
    ∃ t, step { d9 with history := [.transition 9 1 4, .outWrite 10 0x24 0x08] } = .next t := by
  refine ⟨fun t po som h => ?_, fun t src dst h => ?_, _, rfl⟩
  · simp only [List.mem_cons, reduceCtorEq, Event.outWrite.injEq, List.not_mem_nil, or_false, false_or] at h
    obtain ⟨-, rfl, rfl⟩ := h
    exact ⟨4, row4, by decide, by decide, rfl, rfl⟩
  · simp only [List.mem_cons, reduceCtorEq, Event.transition.injEq, List.not_mem_nil, or_false] at h
    obtain ⟨-, rfl, rfl⟩ := h
    exact ⟨4, by decide, by decide⟩

/-- EX9 between NEXT and OUT: CUR names state 5, the ports still show state 4. -/
def l9 : State := { d9 with cur := 5, ph := .out, ucnt := 0, history := [.transition 9 4 5] }

theorem l9_inv : Inv l9 where
  valid := by decide
  range := ⟨by decide, by decide, by decide, by decide, by decide, by decide, by decide⟩
  count := by decide
  dwelling := fun h => nomatch h
  idle := fun _ => rfl
  moore := fun h => absurd rfl h

theorem l9_lag : LagInv l9 where
  lag := fun _ t src dst h r hr => by
    cases h
    rw [ex9_row4 hr]
    decide
  last := fun h => absurd rfl h

theorem witness_OutputsLagOneTickAfterNext :
    (Inv l9 ∧ LagInv l9 ∧ ∃ t, step l9 = .next t) ∧ (Inv d9 ∧ LagInv d9 ∧ ∃ t, step d9 = .next t) :=
  ⟨⟨l9_inv, l9_lag, _, rfl⟩, ⟨d9_inv, d9_lag, _, rfl⟩⟩

theorem witness_UnitTicksAreCalibrated : 0 < Config.reference.clkHz := by decide

end Sys2Proof.Tests
end

section
/-! The calibration of one dwell unit (00_scope.md R6). -/

namespace Sys2Proof.Proofs

/-- R6 for one configuration: a running clock (`CLK_HZ ≠ 0`) is what makes the quotient `UNIT_SECONDS` exact. -/
theorem clkHz_mul_unitSeconds {c : Config} (hclk : 0 < c.clkHz) : c.clkHz * c.unitSeconds = (c.unitTicks : ℚ) :=
  mul_div_cancel₀ _ (Nat.cast_ne_zero.2 hclk.ne')

/-- At 80 MHz the reference's 800000 ticks are 10 ms. -/
theorem reference_unitSeconds : Config.reference.unitSeconds = 1 / 100 := by
  norm_num [Config.unitSeconds, Config.reference]

/-- Settles O56: the identity clears the denominator of `UNIT_SECONDS`; the reference unit is computed. -/
theorem unitTicksAreCalibrated : Obligations.UnitTicksAreCalibrated :=
  ⟨fun _ hclk => (clkHz_mul_unitSeconds hclk).symm, reference_unitSeconds⟩

end Sys2Proof.Proofs
end

section
/-! What one edge of each phase leaves in the state: the layer that the statements about the state (10_state.md) rest on. -/

namespace Sys2Proof.Proofs

open Sys2Proof.Machine Sys2Proof.Laws

theorem trunc_lt (w v : Nat) : trunc w v < 2 ^ w := Nat.mod_lt _ (Nat.two_pow_pos w)

/-- R5's constraint column, less `popcount(SMASK) <= SPORT_W`, which every value of the mask meets. -/
theorem paramsOk_iff (c : Config) : paramsOk c = true ↔
    1 ≤ c.k ∧ 1 ≤ c.pw ∧ 0 < c.smask ∧ c.smask < 2 ^ c.sportW ∧ c.k ≤ c.sensW ∧ 1 ≤ c.dwellW ∧
    0 < c.clkHz := by
  have hpop : popcount c.sportW c.smask ≤ c.sportW :=
    (List.length_filter_le _ _).trans_eq List.length_range
  simp only [paramsOk, hpop, decide_true, Bool.and_true, Bool.and_eq_true, decide_eq_true_eq, and_assoc]

theorem valid_smask_lt {c : Config} (hv : Valid c) : c.smask < 2 ^ c.sportW := by
  obtain ⟨hparams, -⟩ := (valid_iff c).1 hv
  obtain ⟨-, -, -, hmask, -⟩ := (paramsOk_iff c).1 hparams
  exact hmask

/-- SPORT written under SMASK shows the new value on the engine's own bits. -/
theorem maskedWrite_shows {c : Config} (hv : Valid c) (old so : Nat) :
    maskedWrite c.sportW old so c.smask &&& c.smask = so &&& c.smask :=
  maskedWrite_owned _ _ _ _ (valid_smask_lt hv)

/-! ### OUT -/

/-- The state OUT leaves (40_engine_ops.md R80), both cases of the dwell in one. -/
def outResult (r : Row) (s : State) : State :=
  { s with
    pout := r.po
    sport := maskedWrite s.cfg.sportW s.sport r.so s.cfg.smask
    ucnt := r.dwell
    reload := if r.dwell = 0 then s.reload else BitVec.ofNat 24 (s.cfg.unitTicks - 1)
    cnt := if r.dwell = 0 then nextCount s else 0
    ph := if r.dwell = 0 then .sample else .dwell
    history := s.history ++ [.outWrite (s.tick + 1) r.po (r.so &&& s.cfg.smask)] }

theorem outTick_eq {s : State} {r : Row} (hv : Valid s.cfg) (hr : r.WF s.cfg) : outTick r s = .ok (outResult r s) := by
  by_cases hd : r.dwell = 0
  · rw [outTick_zero hr hd]; simp [outResult, hd]
  · rw [outTick_pos hr hd (valid_ticks hv)]; simp [outResult, hd]

theorem outResult_ph_ne_out (r : Row) (s : State) : (outResult r s).ph ≠ .out := by
  unfold outResult; split_ifs <;> simp

theorem outResult_ph_eq_dwell (r : Row) (s : State) : (outResult r s).ph = .dwell ↔ r.dwell ≠ 0 := by
  unfold outResult; split_ifs with hd <;> simp [hd]

/-! ### DWELL -/

/-- A DWELL tick with units to go counts at most one of them, or ends the dwell with UCNT = 0 (40_engine_ops.md R81). -/
theorem dwellTick_counting {s : State} (hu : 1 ≤ s.ucnt) :
    (∃ u, 1 ≤ u ∧ u ≤ s.ucnt ∧ dwellTick s = State.setUcnt u (timerTick s)) ∨
    dwellTick s = State.setPh .sample { s with cnt := 0, ucnt := 0 } := by
  by_cases hlast : unitsRemaining s = 1
  · obtain ⟨-, -, hd⟩ := unitTick_last (State.setPh .sample) hu hlast
    exact .inr hd
  · obtain ⟨u, hu1, hule, hd, -⟩ := unitTick_going (State.setPh .sample) hu hlast
    exact .inl ⟨u, hu1, hule, hd⟩

theorem dwellTick_ucnt_lt {s : State} {w : Nat} (hw : s.cfg.dwellW = w) (hu : s.ucnt < 2 ^ w) :
    (dwellTick s).ucnt < 2 ^ w := by
  unfold dwellTick unitTick countUnit
  split_ifs
  · exact Nat.two_pow_pos w
  · exact hw ▸ trunc_lt _ _
  · exact (Nat.sub_le _ _).trans_lt hu
  · exact hu

section
variable (s : State)

@[simp] theorem dwellTick_cfg : (dwellTick s).cfg = s.cfg := by rw [dwellTick_frame]
@[simp] theorem dwellTick_cur : (dwellTick s).cur = s.cur := by rw [dwellTick_frame]
@[simp] theorem dwellTick_inp : (dwellTick s).inp = s.inp := by rw [dwellTick_frame]
@[simp] theorem dwellTick_reload : (dwellTick s).reload = s.reload := by rw [dwellTick_frame]
@[simp] theorem dwellTick_cnt : (dwellTick s).cnt = nextCount s := by rw [dwellTick_frame]
@[simp] theorem dwellTick_pout : (dwellTick s).pout = s.pout := by rw [dwellTick_frame]
@[simp] theorem dwellTick_sport : (dwellTick s).sport = s.sport := by rw [dwellTick_frame]
@[simp] theorem dwellTick_env : (dwellTick s).env = s.env := by rw [dwellTick_frame]
@[simp] theorem dwellTick_tick : (dwellTick s).tick = s.tick := by rw [dwellTick_frame]
@[simp] theorem dwellTick_edges : (dwellTick s).edges = s.edges := by rw [dwellTick_frame]
@[simp] theorem dwellTick_history : (dwellTick s).history = s.history := by rw [dwellTick_frame]
@[simp] theorem dwellTick_ret : (dwellTick s).ret = s.ret := by rw [dwellTick_frame]

end

/-! ### NEXT -/

/-- The state NEXT leaves when it takes the transition to `target` (40_engine_ops.md R83). -/
def nextResult (target : Nat) (s : State) : State := State.setPh .out (moveTo target (timerTick s))

theorem nextTick_eq {s : State} {r : Row} {target : Nat} (h : targetOf s.cfg s.cur r s.inp = .ok target) :
    nextTick r s = .ok (nextResult target s) := nextTick_ok h

/-! ### A step -/

/-- What a step can do, in the results of the phases: reset, or the one tick of PH's phase. -/
inductive StepTo (s : State) : State → Prop where
  | reset : rstNow s = true → StepTo s s.enterReset
  | out {r : Row} : rstNow s = false → s.ph = .out → rowAt s.cfg s.cur = .ok r → StepTo s (after 1 (outResult r s))
  | dwell : rstNow s = false → s.ph = .dwell → s.cur < s.cfg.nstates → StepTo s (after 1 (dwellTick s))
  | sample : rstNow s = false → s.ph = .sample → s.cur < s.cfg.nstates → StepTo s (after 1 (sampleTick s))
  | next {r : Row} {target : Nat} : rstNow s = false → s.ph = .next → rowAt s.cfg s.cur = .ok r →
      targetOf s.cfg s.cur r s.inp = .ok target → StepTo s (after 1 (nextResult target s))

theorem stepTo_of_step {s t : State} (h : step s = .next t) : StepTo s t := by
  obtain ⟨hv, ⟨hr, rfl⟩ | ⟨hr, hc, hphase⟩⟩ := step_cases h
  · exact .reset hr
  · obtain ⟨hp, r, u, hrow, hu, rfl⟩ | ⟨hp, rfl⟩ | ⟨hp, rfl⟩ | ⟨hp, r, target, hrow, htarget, rfl⟩ := hphase
    · cases hu.symm.trans (outTick_eq hv (rowAt_wf hrow))
      exact .out hr hp hrow
    · exact .dwell hr hp hc
    · exact .sample hr hp hc
    · exact .next hr hp hrow htarget

/-- At a valid configuration what a step can do it does. -/
theorem step_of_stepTo {s t : State} (hv : Valid s.cfg) (h : StepTo s t) : step s = .next t := by
  cases h with
  | reset hr => exact step_reset hv hr
  | out hr hp hrow => rw [step_eq, hp]; exact exec_out_quiet hv hr hrow (outTick_eq hv (rowAt_wf hrow))
  | dwell hr hp hc => rw [step_eq, hp]; exact exec_dwell_quiet hv hr hc
  | sample hr hp hc => rw [step_eq, hp]; exact exec_sample_quiet hv hr hc
  | next hr hp hrow htarget => rw [step_eq, hp]; exact exec_next_quiet hv hr hrow (nextTick_eq htarget)

theorem stepTo_cfg {s t : State} (h : StepTo s t) : t.cfg = s.cfg := by
  cases h <;> simp [outResult, sampleTick, nextResult]

end Sys2Proof.Proofs
end

section
/-! Every register keeps its width (10_state.md R10, R11). -/

namespace Sys2Proof.Proofs

open Sys2Proof.Machine Sys2Proof.Laws

/-- Settles O39: each phase writes a register with a value of its width, a row's field, a count or a masked value. -/
theorem everyStepKeepsRegistersInRange : Obligations.EveryStepKeepsRegistersInRange := by
  intro s t h hstep
  cases stepTo_of_step hstep with
  | reset => exact { h with cur := h.init, inp := Nat.two_pow_pos _, ucnt := Nat.two_pow_pos _ }
  | out _ _ hrow =>
    have hwf := rowAt_wf hrow
    exact { h with ucnt := row_dwell_lt hwf, pout := row_po_lt hwf, sport := maskedWrite_lt _ _ _ _ }
  | dwell =>
    exact ⟨by simpa using h.cur, by simpa using h.init, by simpa using h.inp,
      by simpa using dwellTick_ucnt_lt rfl h.ucnt, by simpa using h.pout, by simpa using h.sport, by simpa using h.rom⟩
  | sample => exact { h with inp := trunc_lt _ _ }
  | next _ _ hrow htarget =>
    obtain ⟨-, -, hlt⟩ := targetOf_lt (rowAt_wf hrow) htarget
    exact { h with cur := hlt }

/-- Settles O40: the reset values are zeros, and the ROM is empty. -/
theorem registersInRangeAtReset : Obligations.RegistersInRangeAtReset :=
  ⟨by decide, by decide, by decide, by decide, by decide, by decide, rfl⟩

end Sys2Proof.Proofs
end

section
/-! The invariant of a run (10_state.md R26) and the output lag (70_reset_and_hazards.md R152), phase by phase. -/

namespace Sys2Proof.Proofs

open Sys2Proof.Machine Sys2Proof.Laws

/-! ### The invariant of a run -/

theorem outResult_shows (r : Row) {s : State} (hv : Valid s.cfg) : Shows (outResult r s) r :=
  ⟨rfl, maskedWrite_shows hv _ _⟩

/-- OUT establishes the bounds of DWELL: a whole dwell to go, and one unit in RELOAD. -/
theorem inv_out {s : State} {r : Row} (h : Inv s) (hrow : rowAt s.cfg s.cur = .ok r)
    (hrange : InRange (after 1 (outResult r s))) : Inv (after 1 (outResult r s)) where
  valid := h.valid
  range := hrange
  count := by
    by_cases hd : r.dwell = 0
    · simpa [outResult, hd] using nextCount_le h.count
    · simp [outResult, hd, BitVec.le_def]
  dwelling hp r' hrow' := by
    cases hrow.symm.trans hrow'
    have hd : r.dwell ≠ 0 := (outResult_ph_eq_dwell r s).1 hp
    refine ⟨Nat.one_le_iff_ne_zero.2 hd, le_rfl, ?_⟩
    simpa only [after_reload, after_cfg, outResult, if_neg hd] using reload_toNat (valid_ticks h.valid)
  idle hp := not_not.1 fun hd => hp ((outResult_ph_eq_dwell r s).2 hd)
  moore _ r' hrow' := by
    cases hrow.symm.trans hrow'
    exact outResult_shows r h.valid

/-- In DWELL the units left never grow, and the last one gone the phase is over. -/
theorem inv_dwell {s : State} (h : Inv s) (hp : s.ph = .dwell) (hrange : InRange (after 1 (dwellTick s))) :
    Inv (after 1 (dwellTick s)) := by
  obtain ⟨r, hrow⟩ := valid_row h.valid h.range.cur
  obtain ⟨hu, hle, hreload⟩ := h.dwelling hp r hrow
  have hcount : nextCount s ≤ s.reload := nextCount_le h.count
  have hmoore := h.moore (by simp [hp])
  obtain ⟨u, hu1, hule, hd⟩ | hd := dwellTick_counting hu <;> rw [hd] at hrange ⊢
  · refine ⟨h.valid, hrange, hcount, fun _ r' hrow' => ?_, fun hne => absurd hp hne, fun _ => hmoore⟩
    cases hrow.symm.trans hrow'
    exact ⟨hu1, hule.trans hle, hreload⟩
  · exact ⟨h.valid, hrange, Nat.zero_le _, nofun, fun _ => rfl, fun _ => hmoore⟩

theorem inv_sample {s : State} (h : Inv s) (hp : s.ph = .sample) (hrange : InRange (after 1 (sampleTick s))) :
    Inv (after 1 (sampleTick s)) where
  valid := h.valid
  range := hrange
  count := nextCount_le h.count
  dwelling := nofun
  idle _ := h.idle (by simp [hp])
  moore _ := h.moore (by simp [hp])

theorem inv_next {s : State} {target : Nat} (h : Inv s) (hp : s.ph = .next)
    (hrange : InRange (after 1 (nextResult target s))) : Inv (after 1 (nextResult target s)) where
  valid := h.valid
  range := hrange
  count := nextCount_le h.count
  dwelling := nofun
  idle _ := h.idle (by simp [hp])
  moore hne := absurd rfl hne

theorem inv_enterReset {s : State} (h : Inv s) (hrange : InRange s.enterReset) : Inv s.enterReset where
  valid := h.valid
  range := hrange
  count := BitVec.le_refl _
  dwelling := nofun
  idle _ := rfl
  moore hne := absurd rfl hne

/-- Settles O37: one lemma per way a step can go, over the widths of O39. -/
theorem everyStepKeepsTheInvariant : Obligations.EveryStepKeepsTheInvariant := by
  intro s t h hstep
  have hrange := everyStepKeepsRegistersInRange s t h.range hstep
  cases stepTo_of_step hstep with
  | reset => exact inv_enterReset h hrange
  | out _ _ hrow => exact inv_out h hrow hrange
  | dwell _ hp => exact inv_dwell h hp hrange
  | sample _ hp => exact inv_sample h hp hrange
  | next _ hp => exact inv_next h hp hrange

/-! ### The output lag -/

/-- Settles O55: NEXT takes over the Moore property of the row it leaves, every other phase records no transition, and a
reset leaves ports and history as they are. -/
theorem outputsLagOneTickAfterNext : Obligations.OutputsLagOneTickAfterNext := by
  intro s t h hlag hstep
  cases stepTo_of_step hstep with
  | reset =>
    refine ⟨fun _ time src dst hlast => ?_, fun hne => absurd rfl hne⟩
    by_cases hp : s.ph = .out
    · exact hlag.lag hp time src dst hlast
    · exact absurd hlast (hlag.last hp time src dst)
  | out =>
    exact ⟨fun hout => absurd hout (outResult_ph_ne_out _ s), fun _ _ _ _ => by simp [outResult]⟩
  | dwell _ hp =>
    have hne : (dwellTick s).ph ≠ .out := by
      obtain hkeep | ⟨hleave, -⟩ := dwellTick_ph s
      · simp [hkeep, hp]
      · simp [hleave]
    exact ⟨fun hout => absurd hout hne, fun _ => by simpa using hlag.last (by simp [hp])⟩
  | sample => exact ⟨nofun, fun _ _ _ _ => by simp [sampleTick]⟩
  | next _ hp =>
    refine ⟨fun _ time src dst hlast r hrow => ?_, fun hne => absurd rfl hne⟩
    obtain ⟨-, rfl, -⟩ : _ ∧ s.cur = src ∧ _ := by simpa [nextResult] using hlast
    exact h.moore (by simp [hp]) r hrow

/-! ### Before tick 1 -/

/-- Settles O34: each register of the launch state is the value R25 gives. -/
theorem resetValuesOfEveryRegister : Obligations.ResetValuesOfEveryRegister :=
  ⟨fun _ _ _ _ => ⟨rfl, rfl, rfl, rfl, rfl, rfl, rfl, rfl, rfl, rfl⟩, rfl, rfl, rfl, rfl, rfl, rfl⟩

theorem inRange_launch {c : Config} {pout sport : Nat} (env : Env) (hv : Valid c) (hrom : Memory.wf c.rom = true)
    (hpout : pout < 2 ^ c.pw) (hsport : sport < 2 ^ c.sportW) : InRange (State.launch c pout sport env) :=
  ⟨valid_init hv, valid_init hv, Nat.two_pow_pos _, Nat.two_pow_pos _, hpout, hsport, hrom⟩

/-- The launch state is in OUT with every count at zero. -/
theorem inv_launch {c : Config} {pout sport : Nat} {env : Env} (hv : Valid c)
    (hrange : InRange (State.launch c pout sport env)) : Inv (State.launch c pout sport env) where
  valid := hv
  range := hrange
  count := BitVec.le_refl _
  dwelling := nofun
  idle _ := rfl
  moore hne := absurd rfl hne

/-- Settles O38: the launch state is in OUT with zero counts and an empty history. -/
theorem invariantHoldsAtLaunch : Obligations.InvariantHoldsAtLaunch := by
  intro c pout sport env hv hrom hpout hsport
  exact ⟨inv_launch hv (inRange_launch env hv hrom hpout hsport), ⟨nofun, nofun⟩, nofun, nofun⟩

end Sys2Proof.Proofs
end

section
/-! The check of a configuration (10_state.md R13) and the two properties of a production table (R28): the depth-first
search visits exactly the states that input codes lead to. -/

namespace Sys2Proof.Proofs

open Sys2Proof.Machine Sys2Proof.Laws

/-! ### The check -/

/-- A row that can be read is one that is listed, decodes and is well formed (WF1, WF2, WF4). -/
theorem rowAt_ok_iff_wf {c : Config} {st : Nat} (hs : st < c.nstates) : (∃ r, rowAt c st = .ok r) ↔
    ∃ w r, Memory.read c.rom st = some w ∧ decodeRow c w = .ok r ∧ r.next.length = 2 ^ c.k ∧
      (∀ t ∈ r.next, t < c.nstates) ∧ r.po < 2 ^ c.pw ∧ r.so < 2 ^ c.sportW ∧ r.dwell < 2 ^ c.dwellW := by
  constructor
  · rintro ⟨r, hrow⟩
    obtain ⟨-, w, hread, hdecode⟩ := (rowAt_ok_iff c st r).1 hrow
    obtain ⟨hlen, hfields, htargets⟩ := (row_wf_iff c r).1 (decodeRow_wf c w r hdecode)
    exact ⟨w, r, hread, hdecode, hlen, htargets, hfields⟩
  · rintro ⟨w, r, hread, hdecode, -⟩
    exact ⟨r, (rowAt_ok_iff c st r).2 ⟨hs, w, hread, hdecode⟩⟩

/-- Settles O29: the parameters, WF3, WF5 and the rows, condition by condition. -/
theorem validMeansWellFormed : Obligations.ValidMeansWellFormed := by
  intro c
  rw [valid_iff, paramsOk_iff, forall₂_congr fun _ (hs : _ < c.nstates) => rowAt_ok_iff_wf hs]
  simp only [and_assoc]

/-- Settles O30: every operation makes the check first, and every failing check is TableInvalid. -/
theorem invalidConfigurationHasNoRun : Obligations.InvalidConfigurationHasNoRun := by
  intro s hinvalid
  obtain ⟨f, hf⟩ := Option.ne_none_iff_exists'.1 hinvalid
  obtain ⟨cond, row, rfl⟩ := configFailure_some hf
  exact ⟨cond, row, hf, exec_invalid hf _, exec_invalid hf⟩

/-! ### Paths of input codes -/

/-- Some input codes lead from INIT to the state. -/
def HasPath (c : Config) (st : Nat) : Prop := ∃ codes, follow c c.init codes = some st

theorem follow_append_one {c : Config} {code t : Nat} : ∀ {codes : List Nat} {s u : Nat},
    follow c s codes = some u → stepLookup c u code = .ok t → follow c s (codes ++ [code]) = some t
  | [], s, u, h, ht => by
    cases h
    simp [follow, ht]
  | first :: codes, s, u, h, ht => by
    rw [List.cons_append, follow]
    rw [follow] at h
    split at h
    · exact follow_append_one h ht
    · cases h

/-- The successors of a state are what `step` answers, over every input code. -/
theorem mem_successors_iff {c : Config} {s t : Nat} :
    t ∈ successors c s ↔ ∃ code, code < 2 ^ c.k ∧ stepLookup c s code = .ok t := by
  unfold successors
  cases hrow : rowAt c s with
  | error f =>
    simp only [List.not_mem_nil, false_iff, not_exists, not_and]
    intro code hc
    simp [stepLookup, hrow, show code < c.ncodes from hc]
  | ok r =>
    simp only [stepLookup_of_row hrow]
    constructor
    · intro ht
      obtain ⟨code, hi, rfl⟩ := List.mem_iff_getElem.1 ht
      have hc : code < 2 ^ c.k := ((row_wf_iff c r).1 (rowAt_wf hrow)).1 ▸ hi
      obtain ⟨t, hget, -, htarget⟩ := targetOf_wf (st := s) (rowAt_wf hrow) hc
      cases (List.getElem?_eq_getElem hi).symm.trans hget
      exact ⟨code, hc, htarget⟩
    · rintro ⟨code, -, htarget⟩
      obtain ⟨-, hget, -⟩ := targetOf_lt (rowAt_wf hrow) htarget
      exact List.mem_of_getElem? hget

theorem hasPath_successor {c : Config} {s t : Nat} (hs : HasPath c s) (ht : t ∈ successors c s) : HasPath c t := by
  obtain ⟨codes, hfollow⟩ := hs
  obtain ⟨code, -, hstep⟩ := mem_successors_iff.1 ht
  exact ⟨_, follow_append_one hfollow hstep⟩

/-- A set of states closed under transitions is not left by any path. -/
theorem follow_mem_of_closed {c : Config} {P : Nat → Prop} (hclosed : ∀ s, P s → ∀ t ∈ successors c s, P t) :
    ∀ {codes : List Nat} {s t : Nat}, P s → follow c s codes = some t → P t
  | [], s, t, hs, h => by
    cases h
    exact hs
  | code :: codes, s, t, hs, h => by
    rw [follow] at h
    split at h
    · rename_i u hu
      have hc : code < 2 ^ c.k := by
        by_contra hc
        simp [stepLookup, show ¬ code < c.ncodes from hc] at hu
      exact follow_mem_of_closed hclosed (hclosed s hs u (mem_successors_iff.2 ⟨code, hc, hu⟩)) h
    · cases h

theorem successors_lt {c : Config} {s t : Nat} (ht : t ∈ successors c s) : t < c.nstates := by
  obtain ⟨code, -, hstep⟩ := mem_successors_iff.1 ht
  cases hrow : rowAt c s with
  | error f => simp [successors, hrow] at ht
  | ok r =>
    rw [stepLookup_of_row hrow] at hstep
    exact (targetOf_lt (rowAt_wf hrow) hstep).2.2

theorem successors_length {c : Config} (hv : Valid c) {s : Nat} (hs : s < c.nstates) :
    (successors c s).length = c.ncodes := by
  obtain ⟨r, hrow⟩ := valid_row hv hs
  rw [successors, hrow]
  exact ((row_wf_iff c r).1 (rowAt_wf hrow)).1

/-! ### The search -/

/-- Soundness: the search adds successors of what it was given, and nothing else. -/
theorem search_sound {c : Config} {P : Nat → Prop} (hclosed : ∀ s, P s → ∀ t ∈ successors c s, P t) :
    ∀ (fuel : Nat) (todo seen : List Nat), (∀ s ∈ todo, P s) → (∀ s ∈ seen, P s) →
    ∀ s ∈ search c fuel todo seen, P s := by
  intro fuel
  induction fuel with
  | zero => intro todo seen _ hseen; simpa [search] using hseen
  | succ fuel ih =>
    intro todo seen htodo hseen
    cases todo with
    | nil => simpa [search] using hseen
    | cons s todo =>
      obtain ⟨hs, htodo⟩ := List.forall_mem_cons.1 htodo
      rw [search]
      split_ifs
      · exact ih todo seen htodo hseen
      · exact ih _ _ (List.forall_mem_append.2 ⟨hclosed s hs, htodo⟩) (List.forall_mem_cons.2 ⟨hs, hseen⟩)

/-- What the search keeps between visits: states of the table, none seen twice, every successor of a seen state seen or
still to do, and fuel for what is to do and for the successors of what is yet unseen. -/
structure SearchInv (c : Config) (fuel : Nat) (todo seen : List Nat) : Prop where
  todo_lt : ∀ s ∈ todo, s < c.nstates
  seen_lt : ∀ s ∈ seen, s < c.nstates
  nodup : seen.Nodup
  closed : ∀ s ∈ seen, ∀ t ∈ successors c s, t ∈ seen ∨ t ∈ todo
  enough : todo.length + (c.nstates - seen.length) * c.ncodes ≤ fuel

/-- A state already seen is dropped, at the cost of one visit. -/
theorem searchInv_skip {c : Config} {fuel s : Nat} {todo seen : List Nat} (h : SearchInv c (fuel + 1) (s :: todo) seen)
    (hs : s ∈ seen) : SearchInv c fuel todo seen where
  todo_lt u hu := h.todo_lt u (List.mem_cons_of_mem s hu)
  seen_lt := h.seen_lt
  nodup := h.nodup
  closed u hu t ht := (h.closed u hu t ht).elim .inl fun hmem =>
    (List.mem_cons.1 hmem).elim (fun e => .inl (e ▸ hs)) .inr
  enough := by
    have henough := h.enough
    rw [List.length_cons] at henough
    omega

/-- Distinct states of the table are no more than NSTATES. -/
theorem length_le_nstates {c : Config} {l : List Nat} (hnodup : l.Nodup) (hlt : ∀ s ∈ l, s < c.nstates) :
    l.length ≤ c.nstates := by
  have hsub : l ⊆ List.range c.nstates := fun s hs => List.mem_range.2 (hlt s hs)
  simpa using (hnodup.subperm hsub).length_le

/-- A state seen for the first time pays for its NCODES successors. -/
theorem searchInv_visit {c : Config} (hv : Valid c) {fuel s : Nat} {todo seen : List Nat}
    (h : SearchInv c (fuel + 1) (s :: todo) seen) (hs : s ∉ seen) :
    SearchInv c fuel (successors c s ++ todo) (s :: seen) := by
  obtain ⟨hlt, htodo⟩ := List.forall_mem_cons.1 h.todo_lt
  have hseen : ∀ u ∈ s :: seen, u < c.nstates := List.forall_mem_cons.2 ⟨hlt, h.seen_lt⟩
  have hnodup : (s :: seen).Nodup := List.nodup_cons.2 ⟨hs, h.nodup⟩
  refine ⟨List.forall_mem_append.2 ⟨fun _ => successors_lt, htodo⟩, hseen, hnodup, fun u hu t ht => ?_, ?_⟩
  · obtain rfl | hu := List.mem_cons.1 hu
    · exact .inr (List.mem_append_left _ ht)
    · obtain hmem | hmem := h.closed u hu t ht
      · exact .inl (List.mem_cons_of_mem _ hmem)
      · obtain rfl | hmem := List.mem_cons.1 hmem
        · exact .inl List.mem_cons_self
        · exact .inr (List.mem_append_right _ hmem)
  · have henough := h.enough
    have hroom : seen.length + 1 ≤ c.nstates := length_le_nstates hnodup hseen
    rw [show c.nstates - seen.length = c.nstates - (seen.length + 1) + 1 by omega, Nat.succ_mul,
      List.length_cons] at henough
    rw [List.length_append, successors_length hv hlt, List.length_cons]
    omega

/-- Completeness: with enough fuel the result holds what was to do and seen, and is closed under transitions. -/
theorem search_complete {c : Config} (hv : Valid c) : ∀ (fuel : Nat) (todo seen : List Nat), SearchInv c fuel todo seen →
    (∀ s, s ∈ todo ∨ s ∈ seen → s ∈ search c fuel todo seen) ∧
    ∀ s ∈ search c fuel todo seen, ∀ t ∈ successors c s, t ∈ search c fuel todo seen := by
  have done : ∀ {fuel seen}, SearchInv c fuel [] seen →
      (∀ s, s ∈ [] ∨ s ∈ seen → s ∈ seen) ∧ ∀ s ∈ seen, ∀ t ∈ successors c s, t ∈ seen := fun h =>
    ⟨fun _ hs => hs.resolve_left List.not_mem_nil, fun s hs t ht => (h.closed s hs t ht).resolve_right List.not_mem_nil⟩
  intro fuel
  induction fuel with
  | zero =>
    intro todo seen h
    obtain rfl : todo = [] := List.length_eq_zero_iff.1 (by have := h.enough; omega)
    exact done h
  | succ fuel ih =>
    intro todo seen h
    cases todo with
    | nil => exact done h
    | cons s todo =>
      rw [search]
      split_ifs with hs
      · obtain ⟨hmem, hclosed⟩ := ih todo seen (searchInv_skip h hs)
        refine ⟨fun u hu => hmem u ?_, hclosed⟩
        obtain hu | hu := hu
        · exact (List.mem_cons.1 hu).elim (fun e => .inr (e ▸ hs)) .inl
        · exact .inr hu
      · obtain ⟨hmem, hclosed⟩ := ih _ _ (searchInv_visit hv h hs)
        refine ⟨fun u hu => hmem u ?_, hclosed⟩
        simp only [List.mem_append, List.mem_cons] at hu ⊢
        tauto

theorem searchInv_start {c : Config} (hv : Valid c) : SearchInv c (1 + c.nstates * c.ncodes) [c.init] [] where
  todo_lt := by simpa using valid_init hv
  seen_lt := nofun
  nodup := List.nodup_nil
  closed := nofun
  enough := le_rfl

/-! ### Reachable and Connected -/

theorem hasPath_of_mem_reachSet {c : Config} {st : Nat} (h : st ∈ reachSet c) : HasPath c st :=
  search_sound (fun _ hs _ ht => hasPath_successor hs ht) _ _ _
    (List.forall_mem_singleton.2 ⟨[], rfl⟩) (List.forall_mem_nil _) st h

theorem mem_reachSet_iff {c : Config} (hv : Valid c) {st : Nat} : st ∈ reachSet c ↔ HasPath c st := by
  refine ⟨hasPath_of_mem_reachSet, fun ⟨codes, hfollow⟩ => ?_⟩
  obtain ⟨hmem, hclosed⟩ := search_complete hv _ _ _ (searchInv_start hv)
  exact follow_mem_of_closed hclosed (hmem c.init (.inl List.mem_cons_self)) hfollow

theorem reachable_iff (c : Config) : Reachable c = true ↔ ∀ st, st < c.nstates → st ∈ reachSet c := by
  simp [Reachable]

theorem connected_iff (c : Config) :
    Connected c = true ↔ ∀ st, st < c.nstates → ∃ t ∈ successors c st, t ∈ reachSet c := by
  simp [Connected]

/-- Settles O32: the search is sound for every configuration and complete for a valid one. -/
theorem reachableStatesHaveAPath : Obligations.ReachableStatesHaveAPath :=
  ⟨fun c h st hs => hasPath_of_mem_reachSet ((reachable_iff c).1 h st hs),
    fun c hv h => (reachable_iff c).2 fun st hs => (mem_reachSet_iff hv).2 (h st hs)⟩

/-- Settles O33: a successor is the answer for some code, and the search finds exactly the states with a path. -/
theorem connectedMeansATransitionBack : Obligations.ConnectedMeansATransitionBack := by
  intro c hv
  rw [connected_iff]
  refine forall₂_congr fun st _ => ?_
  simp only [mem_successors_iff, mem_reachSet_iff hv, HasPath]
  constructor
  · rintro ⟨target, ⟨code, hc, hstep⟩, hpath⟩
    exact ⟨code, target, hc, hstep, hpath⟩
  · rintro ⟨code, target, hc, hstep, hpath⟩
    exact ⟨target, ⟨code, hc, hstep⟩, hpath⟩

end Sys2Proof.Proofs
end

section
/-! What a step leaves unchanged (10_state.md R10, R12, R21, R24): frames of the registers, the foreign port bits, the
sensors, and the table under every operation. -/

namespace Sys2Proof.Proofs

open Sys2Proof.Machine Sys2Proof.Laws

/-! ### The foreign bits of the shared port -/

/-- The bits of SPORT that the engine does not own (10_state.md R21). -/
def foreignBits (s : State) : Nat := s.sport &&& notAt s.cfg.sportW s.cfg.smask

theorem stepTo_foreignBits {s t : State} (h : StepTo s t) : foreignBits t = foreignBits s := by
  cases h with
  | reset => rfl
  | out => exact maskedWrite_foreign _ _ _ _
  | dwell => simp [foreignBits]
  | sample => rfl
  | next => rfl

/-- What every step keeps, every run keeps. -/
theorem runTicks_keeps {P : State → Prop} (hstep : ∀ s t, P s → step s = .next t → P t) :
    ∀ (n : Nat) {s t : State}, P s → runTicks n s = .next t → P t
  | 0, s, t, hs, h => by
    cases h
    exact hs
  | n + 1, s, t, hs, h => by
    cases hst : step s with
    | next u =>
      rw [runTicks_succ n hst] at h
      exact runTicks_keeps hstep n (hstep s u hs hst) h
    | fault f => exact nomatch (run_fault Sys2Proof.core n hst).symm.trans h
    | refused f => exact nomatch (run_refused Sys2Proof.core n hst).symm.trans h

/-- Settles O46: of all steps OUT alone writes SPORT, under the mask. -/
theorem foreignPortBitsNeverChange : Obligations.ForeignPortBitsNeverChange := by
  intro n s t h
  have hkept : t.cfg = s.cfg ∧ foreignBits t = foreignBits s :=
    runTicks_keeps (P := fun u => u.cfg = s.cfg ∧ foreignBits u = foreignBits s)
      (fun u v ⟨hcfg, hbits⟩ hstep =>
        ⟨(stepTo_cfg (stepTo_of_step hstep)).trans hcfg, (stepTo_foreignBits (stepTo_of_step hstep)).trans hbits⟩)
      n ⟨rfl, rfl⟩ h
  obtain ⟨hcfg, hbits⟩ := hkept
  exact ⟨hcfg, by simpa [foreignBits, hcfg] using hbits⟩

/-! ### Each register in its phase -/

/-- Settles O47: the frame of each phase, read off the state it leaves. -/
theorem registersChangeOnlyInTheirPhase : Obligations.RegistersChangeOnlyInTheirPhase := by
  intro s t hquiet hstep
  cases stepTo_of_step hstep with
  | reset hr => simp [hquiet] at hr
  | @out r _ hp => by_cases hd : r.dwell = 0 <;> simp [hp, hd, outResult]
  | dwell _ hp =>
    have hph : (dwellTick s).ph = .dwell ∨ (dwellTick s).ph = .sample := (dwellTick_ph s).imp (·.trans hp) And.left
    simp [hp, hph]
  | sample _ hp => simp [hp, sampleTick]
  | next _ hp => simp [hp, nextResult]

/-! ### The sensors -/

/-- The same state under another script. -/
def withEnv (env : Env) (s : State) : State := { s with env := env }

theorem countUnit_withEnv (env : Env) (s : State) : countUnit (withEnv env s) = withEnv env (countUnit s) := by
  unfold countUnit
  rw [apply_ite (withEnv env)]
  rfl

/-- A DWELL tick commutes with a change of the script, in each of its three cases. -/
theorem dwellTick_withEnv (env : Env) (s : State) : dwellTick (withEnv env s) = withEnv env (dwellTick s) := by
  have hexpire : expire false (withEnv env s) = expire false s := rfl
  have hucnt : (withEnv env s).ucnt = s.ucnt := rfl
  unfold dwellTick unitTick
  rw [hexpire, hucnt]
  split_ifs
  · rfl
  · exact countUnit_withEnv env (timerTick s)
  · rfl

/-- Settles O51: only SAMPLE's result holds a value of the environment. -/
theorem sensorsAreReadOnlyInSample : Obligations.SensorsAreReadOnlyInSample := by
  intro s t env hphase hrst hstep
  have hv : Valid ({ s with env := env } : State).cfg := (step_next_valid hstep).1
  have hrst : rstNow { s with env := env } = rstNow s := hrst
  refine step_of_stepTo hv ?_
  cases stepTo_of_step hstep with
  | reset hr => exact .reset (hrst.trans hr)
  | out hr hp hrow => exact .out (hrst.trans hr) hp hrow
  | dwell hr hp hc =>
    have hdwell := StepTo.dwell (s := withEnv env s) (hrst.trans hr) hp hc
    rwa [dwellTick_withEnv] at hdwell
  | sample hr hp hc => exact absurd hp hphase
  | next hr hp hrow htarget => exact .next (hrst.trans hr) hp hrow htarget

/-! ### The table under every operation -/

/-- Configuration and script are the same. -/
def SameTable (s t : State) : Prop := t.cfg = s.cfg ∧ t.env = s.env

theorem SameTable.trans {s t u : State} : SameTable s t → SameTable t u → SameTable s u :=
  fun ⟨hcfg, henv⟩ ⟨hcfg', henv'⟩ => ⟨hcfg'.trans hcfg, henv'.trans henv⟩

/-- A stretch of edges writes neither the configuration nor the script. -/
def KeepsTable (f : State → Pass) : Prop := ∀ s t, (f s).outcome = .next t → SameTable s t

theorem keepsTable_onEdge {op : State → Except Fault State} (hop : ∀ s u, op s = .ok u → SameTable s u) :
    KeepsTable (onEdge op) := by
  intro s
  exact onEdge_keeps (P := SameTable s) ⟨rfl, rfl⟩ (hop s)

theorem keepsTable_andThen {f g : State → Pass} (hf : KeepsTable f) (hg : KeepsTable g) :
    KeepsTable fun s => (f s).andThen g := by
  intro s
  exact andThen_keeps (P := SameTable s) (hf s) fun u hu t ht => hu.trans (hg u t ht)

theorem keepsTable_timerTick : KeepsTable (onEdge fun t => .ok (timerTick t)) :=
  keepsTable_onEdge fun _ _ h => by cases h; exact ⟨rfl, rfl⟩

theorem keepsTable_tickUntilExpire (fuel : Nat) : KeepsTable (tickUntilExpire fuel) := fun s =>
  tickUntilExpire_keeps (P := SameTable s) (fun _ h => h) (fun _ h => h) fuel s ⟨rfl, rfl⟩

theorem unitTick_sameTable (s : State) : SameTable s (unitTick id s) := by
  rw [unitTick_frame]
  exact ⟨rfl, rfl⟩

theorem keepsTable_tickUntilUnits (fuel : Nat) : KeepsTable (tickUntilUnits fuel) := fun s =>
  tickUntilUnits_keeps (P := SameTable s) (fun _ h => h) (fun u h => h.trans (unitTick_sameTable u)) fuel s ⟨rfl, rfl⟩

theorem keepsTable_tickFor (n : Nat) : KeepsTable (tickFor n) := fun s =>
  tickFor_keeps (P := SameTable s) (fun _ h => h) (fun _ h => h) n s ⟨rfl, rfl⟩

theorem timerStart_sameTable {n : Nat} {s u : State} (h : timerStart n s = .ok u) : SameTable s u := by
  rw [timerStart_ok h]
  exact ⟨rfl, rfl⟩

theorem startUnits_sameTable {n : Nat} {s u : State} (h : startUnits n s = .ok u) : SameTable s u := by
  rw [startUnits_ok h]
  exact ⟨rfl, rfl⟩

theorem outTick_sameTable {r : Row} {s u : State} (h : outTick r s = .ok u) : SameTable s u := by
  rw [outTick_frame h]
  exact ⟨rfl, rfl⟩

theorem nextTick_sameTable {r : Row} {s u : State} (h : nextTick r s = .ok u) : SameTable s u := by
  rw [nextTick_frame h]
  exact ⟨rfl, rfl⟩

theorem dwellTick_sameTable (s : State) : SameTable s (dwellTick s) := ⟨dwellTick_cfg s, dwellTick_env s⟩

theorem sampleTick_sameTable (s : State) : SameTable s (sampleTick s) := ⟨rfl, rfl⟩

theorem phaseTick_sameTable {r : Row} {s u : State} (h : phaseTick r s = .ok u) : SameTable s u := by
  unfold phaseTick at h
  split at h
  · exact outTick_sameTable h
  · cases h; exact dwellTick_sameTable s
  · cases h; exact sampleTick_sameTable s
  · exact nextTick_sameTable h

theorem rowTick_sameTable {r : Row} {s u : State} (h : rowTick r s = .ok u) : SameTable s u := by
  unfold rowTick at h
  split at h
  · exact phaseTick_sameTable h
  · cases h

theorem writePort_sameTable (port : Port) (bits mask : Nat) (s : State) : SameTable s (writePort port bits mask s) := by
  cases port <;> exact ⟨rfl, rfl⟩

theorem keepsTable_iteration : KeepsTable iteration := by
  refine keepsTable_andThen (keepsTable_onEdge fun s u h => ?_) <|
    keepsTable_andThen (fun s => keepsTable_tickUntilUnits _ s) <|
      keepsTable_andThen (keepsTable_onEdge fun s u h => ?_) (keepsTable_onEdge fun s u h => ?_)
  · have hstart := (withCur_ok h).2
    unfold iterationStart at hstart
    split at hstart
    · have hkept := startUnits_sameTable hstart
      exact hkept
    · cases hstart
    · cases hstart
  · cases h
    exact ⟨rfl, rfl⟩
  · unfold iterationEnd at h
    split at h <;> cases h
    exact ⟨rfl, rfl⟩

theorem waitTicksStart_sameTable {n : Nat} {s u : State} (h : waitTicksStart n s = .ok u) : SameTable s u := by
  unfold waitTicksStart at h
  split_ifs at h
  exact timerStart_sameTable h

theorem answer_sameTable {α : Type} {ret : α → Ret} {result : Except Fault α} {s t : State}
    (h : answer ret result s = .next t) : SameTable s t := by
  cases result <;> cases h
  exact ⟨rfl, rfl⟩

theorem exec_waitUnits_sameTable {n : Nat} {s t : State} (h : exec (.waitUnits n) s = .next t) : SameTable s t := by
  have hv := exec_next_valid h
  by_cases h0 : n = 0
  · subst h0
    rw [exec_waitUnits_zero hv] at h
    exact keepsTable_timerTick s t h
  by_cases hn : n < 2 ^ s.cfg.dwellW
  · rw [exec_waitUnits hv h0 hn] at h
    exact keepsTable_andThen (keepsTable_onEdge fun _ _ => startUnits_sameTable) (keepsTable_tickUntilUnits _) s t h
  · rw [exec_waitUnits_long hv (Nat.le_of_not_lt hn)] at h
    refine keepsTable_andThen (keepsTable_onEdge fun _ _ hu => ?_)
      (keepsTable_andThen (fun u => keepsTable_tickFor _ u) fun _ _ hu => ?_) s t h
    · exact timerStart_sameTable (s := drawUnits _) hu
    · cases hu
      exact ⟨rfl, rfl⟩

theorem exec_sameTable {i : Instr} {s t : State} (h : exec i s = .next t) : SameTable s t := by
  have hv := exec_next_valid h
  cases i with
  | state r =>
    rw [exec_state r hv] at h
    exact keepsTable_onEdge (fun _ _ hu => rowTick_sameTable (withCur_ok hu).2) s t h
  | out =>
    rw [exec_out hv] at h
    refine keepsTable_onEdge (fun _ _ hu => ?_) s t h
    obtain ⟨_, -, hu⟩ := withRow_ok hu
    exact outTick_sameTable hu
  | dwell =>
    rw [exec_dwell hv] at h
    refine keepsTable_onEdge (fun u _ hu => ?_) s t h
    cases (withCur_ok hu).2
    exact dwellTick_sameTable u
  | sample =>
    rw [exec_sample hv] at h
    refine keepsTable_onEdge (fun u _ hu => ?_) s t h
    cases (withCur_ok hu).2
    exact sampleTick_sameTable u
  | next =>
    rw [exec_next hv] at h
    refine keepsTable_onEdge (fun _ _ hu => ?_) s t h
    obtain ⟨_, -, hu⟩ := withRow_ok hu
    exact nextTick_sameTable hu
  | tmrStart n =>
    rw [exec_tmrStart n hv] at h
    exact keepsTable_onEdge (fun _ _ => timerStart_sameTable) s t h
  | tmrTick =>
    rw [exec_tmrTick hv] at h
    exact keepsTable_timerTick s t h
  | step st code =>
    rw [exec_step st code hv] at h
    exact answer_sameTable h
  | outputsFor st =>
    rw [exec_outputsFor st hv] at h
    exact answer_sameTable h
  | run =>
    rw [exec_run hv] at h
    exact keepsTable_iteration s t h
  | waitTicks n =>
    rw [exec_waitTicks n hv] at h
    exact keepsTable_andThen (keepsTable_onEdge fun _ _ => waitTicksStart_sameTable) (keepsTable_tickUntilExpire n) s t h
  | waitUnits n => exact exec_waitUnits_sameTable h
  | readInputs =>
    rw [exec_readInputs hv] at h
    cases h
    exact ⟨rfl, rfl⟩
  | writeOutputs port bits mask =>
    rw [exec_writeOutputs port bits mask hv] at h
    refine keepsTable_onEdge (fun u _ hu => ?_) s t h
    cases hu
    exact writePort_sameTable port bits mask (timerTick u)

/-- Settles O48: the ROM is part of the configuration, which every operation keeps. -/
theorem noOperationWritesTheTable : Obligations.NoOperationWritesTheTable := by
  intro i s t h
  obtain ⟨hcfg, henv⟩ := exec_sameTable h
  exact ⟨hcfg, henv, fun _ => by rw [hcfg]⟩

end Sys2Proof.Proofs
end

section
/-! A row word under execution (10_state.md R11, 30_encoding.md R60, R64). -/

namespace Sys2Proof.Proofs

open Sys2Proof.Machine Sys2Proof.Laws

/-- A well-formed row word takes one tick of the phase PH selects. -/
theorem exec_state_quiet {s t : State} {r : Row} (hv : Valid s.cfg) (hc : s.cur < s.cfg.nstates) (hr : rstNow s = false)
    (hwf : r.WF s.cfg) (h : phaseTick r s = .ok t) : exec (.state r) s = .next (after 1 t) :=
  checked_edge hv hr ((withCur_lt _ hc).trans ((rowTick_wf hwf).trans h))

/-- An ill-formed row word faults with its first failing condition. -/
theorem exec_state_illFormed {s : State} {r : Row} {cond : Condition} (hv : Valid s.cfg) (hc : s.cur < s.cfg.nstates)
    (hr : rstNow s = false) (h : r.failure s.cfg = some cond) :
    exec (.state r) s = .fault (.tableInvalid cond s.cur) :=
  checked_edge_fault hv hr ((withCur_lt _ hc).trans (rowTick_failure h))

/-- Settles O25: the four phases, each with the state it leaves. -/
theorem stateRowRunsThePhaseOfPh : Obligations.StateRowRunsThePhaseOfPh := by
  intro s r hv hc hr
  refine ⟨fun hwf hin => ?_, fun cond => exec_state_illFormed hv hc hr⟩
  have hrun : ∀ {t}, phaseTick r s = .ok t → exec (.state r) s = .next (after 1 t) := exec_state_quiet hv hc hr hwf
  cases hp : s.ph with
  | out =>
    have hphase : phaseTick r s = .ok (outResult r s) := by rw [phaseTick, hp]; exact outTick_eq hv hwf
    refine ⟨_, hrun hphase, rfl, rfl, rfl, rfl, rfl, fun _ => ?_, nofun, nofun, nofun⟩
    refine ⟨rfl, rfl, rfl, rfl, rfl, rfl, rfl, fun hd => ?_, fun hd => ?_, rfl⟩
    · simp [outResult, hd]
    · have hreload := reload_toNat (valid_ticks hv)
      have hpos : 1 ≤ s.cfg.unitTicks := (valid_ticks hv).1
      simp only [after_reload, after_cnt, outResult, if_neg hd, hreload, and_true]
      omega
  | dwell =>
    have hphase : phaseTick r s = .ok (dwellTick s) := by rw [phaseTick, hp]
    refine ⟨_, hrun hphase, ?_, ?_, ?_, ?_, ?_, nofun, fun _ => exec_dwell_quiet hv hr hc, nofun, nofun⟩ <;> simp
  | sample =>
    have hphase : phaseTick r s = .ok (sampleTick s) := by rw [phaseTick, hp]
    exact ⟨_, hrun hphase, rfl, rfl, rfl, rfl, rfl, nofun, nofun, fun _ => exec_sample_quiet hv hr hc, nofun⟩
  | next =>
    obtain ⟨target, hget, -, htarget⟩ := targetOf_wf (st := s.cur) hwf hin
    have hphase : phaseTick r s = .ok (nextResult target s) := by rw [phaseTick, hp]; exact nextTick_eq htarget
    exact ⟨_, hrun hphase, rfl, rfl, rfl, rfl, rfl, nofun, nofun, nofun,
      fun _ => ⟨hget, rfl, rfl, rfl, rfl, rfl, rfl, rfl, rfl, rfl⟩⟩

end Sys2Proof.Proofs
end

section
/-! The boundary and the history (20_memory.md R41, R45 to R47, R52, R56): the capabilities `read_inputs` and
`write_outputs`, what leaves the ports and the history alone, and what a step never reads. -/

namespace Sys2Proof.Proofs

open Sys2Proof.Machine Sys2Proof.Laws

/-! ### read_inputs and write_outputs -/

theorem sensAt_scripted {c : Config} {env : Env} {e v : Nat} (h : scripted env.sens e = some v) :
    sensAt c env e = trunc c.sensW v := by
  rw [sensAt, h]

/-- Settles O23: the boundary's value is cut to SENS_W bits, and the caller alone receives it. -/
theorem readInputsReturnsTheBoundary : Obligations.ReadInputsReturnsTheBoundary :=
  fun _ hv => ⟨exec_readInputs hv, trunc_lt _ _, fun _ => sensAt_scripted⟩

/-- A write of its own is one tick of the timer together with the write (R47, R101). -/
theorem exec_writeOutputs_quiet (port : Port) (bits mask : Nat) {s : State} (hv : Valid s.cfg) (hr : rstNow s = false) :
    exec (.writeOutputs port bits mask) s = .next (after 1 (writePort port bits mask (timerTick s))) :=
  checked_edge hv hr rfl

/-- Settles O24: the written port takes the masked value, which `maskedWrite_testBit` gives bit by bit. -/
theorem writeOutputsMasksThePort : Obligations.WriteOutputsMasksThePort :=
  fun s bits mask hv hr =>
    ⟨⟨_, exec_writeOutputs_quiet .sport bits mask hv hr, maskedWrite_testBit s.cfg.sportW s.sport bits mask⟩,
     ⟨_, exec_writeOutputs_quiet .pout bits mask hv hr, maskedWrite_testBit s.cfg.pw s.pout bits mask⟩⟩

/-! ### Frames of the ports and the history -/

/-- What the outside sees of a state: the ports, the history and the returned value. -/
def outside (s : State) : Nat × Nat × List Event × Ret := (s.pout, s.sport, s.history, s.ret)

theorem outside_eq_iff {s t : State} : outside t = outside s ↔
    (t.pout = s.pout ∧ t.sport = s.sport) ∧ t.history = s.history ∧ t.ret = s.ret := by
  simp only [outside, Prod.mk.injEq, and_assoc]

theorem outside_timerStart {n : Nat} {s u : State} (h : timerStart n s = .ok u) : outside u = outside s := by
  rw [timerStart_ok h]
  rfl

theorem outside_startUnits {n : Nat} {s u : State} (h : startUnits n s = .ok u) : outside u = outside s := by
  rw [startUnits_ok h]
  rfl

theorem outside_waitTicksStart {n : Nat} {s u : State} (h : waitTicksStart n s = .ok u) : outside u = outside s := by
  unfold waitTicksStart at h
  split_ifs at h
  exact outside_timerStart h

theorem outside_unitTick (s : State) : outside (unitTick id s) = outside s := by
  rw [unitTick_frame]
  rfl

/-- One edge at which an operation leaves the outside alone; a reset does too. -/
theorem outside_onEdge {op : State → Except Fault State} {s t : State}
    (hop : ∀ u, op s = .ok u → outside u = outside s) (h : (onEdge op s).outcome = .next t) : outside t = outside s :=
  onEdge_keeps (P := fun u => outside u = outside s) rfl hop t h

/-- A stretch that leaves the outside alone, after an edge that does. -/
theorem outside_onEdge_andThen {op : State → Except Fault State} {k : State → Pass} {s t : State}
    (hop : ∀ u, op s = .ok u → outside u = outside s)
    (hk : ∀ u, outside u = outside s → ∀ v, (k u).outcome = .next v → outside v = outside s)
    (h : ((onEdge op s).andThen k).outcome = .next t) : outside t = outside s :=
  andThen_keeps (P := fun u => outside u = outside s) (onEdge_keeps rfl hop) hk t h

theorem outside_exec_dwell {s t : State} (h : exec .dwell s = .next t) : outside t = outside s := by
  rw [exec_dwell (exec_next_valid h)] at h
  refine outside_onEdge (fun u hu => ?_) h
  cases (withCur_ok hu).2
  rw [dwellTick_frame]
  rfl

theorem outside_exec_tmrStart {n : Nat} {s t : State} (h : exec (.tmrStart n) s = .next t) : outside t = outside s := by
  rw [exec_tmrStart n (exec_next_valid h)] at h
  exact outside_onEdge (fun _ => outside_timerStart) h

theorem outside_tick {s t : State} (h : (onEdge (fun u => .ok (timerTick u)) s).outcome = .next t) :
    outside t = outside s :=
  outside_onEdge (fun _ hu => by cases hu; rfl) h

theorem outside_exec_tmrTick {s t : State} (h : exec .tmrTick s = .next t) : outside t = outside s :=
  outside_tick (exec_tmrTick (exec_next_valid h) ▸ h)

theorem outside_exec_waitTicks {n : Nat} {s t : State} (h : exec (.waitTicks n) s = .next t) :
    outside t = outside s := by
  rw [exec_waitTicks n (exec_next_valid h)] at h
  exact outside_onEdge_andThen (fun _ => outside_waitTicksStart)
    (tickUntilExpire_keeps (fun _ hu => hu) (fun _ hu => hu) n) h

theorem outside_exec_waitUnits {n : Nat} {s t : State} (h : exec (.waitUnits n) s = .next t) :
    outside t = outside s := by
  have hv := exec_next_valid h
  by_cases h0 : n = 0
  · subst h0
    rw [exec_waitUnits_zero hv] at h
    exact outside_tick h
  by_cases hn : n < 2 ^ s.cfg.dwellW
  · rw [exec_waitUnits hv h0 hn] at h
    exact outside_onEdge_andThen (fun _ => outside_startUnits)
      (tickUntilUnits_keeps (fun _ hu => hu) (fun u hu => (outside_unitTick u).trans hu) _) h
  · rw [exec_waitUnits_long hv (Nat.le_of_not_lt hn)] at h
    refine outside_onEdge_andThen (fun _ => outside_timerStart (s := drawUnits s)) (fun u hu => ?_) h
    exact andThen_keeps (tickFor_keeps (fun _ hv => hv) (fun _ hv => hv) _ u hu) fun _ hv _ hw => by cases hw; exact hv

theorem ports_exec_sample {s t : State} (h : exec .sample s = .next t) : t.pout = s.pout ∧ t.sport = s.sport := by
  rw [exec_sample (exec_next_valid h)] at h
  refine onEdge_keeps (P := fun u => u.pout = s.pout ∧ u.sport = s.sport) ⟨rfl, rfl⟩ (fun u hu => ?_) t h
  cases (withCur_ok hu).2
  exact ⟨rfl, rfl⟩

theorem ports_exec_next {s t : State} (h : exec .next s = .next t) : t.pout = s.pout ∧ t.sport = s.sport := by
  rw [exec_next (exec_next_valid h)] at h
  refine onEdge_keeps (P := fun u => u.pout = s.pout ∧ u.sport = s.sport) ⟨rfl, rfl⟩ (fun u hu => ?_) t h
  obtain ⟨_, -, hu⟩ := withRow_ok hu
  rw [nextTick_frame hu]
  exact ⟨rfl, rfl⟩

theorem history_exec_writeOutputs {port : Port} {bits mask : Nat} {s t : State}
    (h : exec (.writeOutputs port bits mask) s = .next t) : t.history = s.history ∧ t.ret = s.ret := by
  rw [exec_writeOutputs port bits mask (exec_next_valid h)] at h
  refine onEdge_keeps (P := fun u => u.history = s.history ∧ u.ret = s.ret) ⟨rfl, rfl⟩ (fun u hu => ?_) t h
  cases hu
  cases port <;> exact ⟨rfl, rfl⟩

theorem answer_frame {α : Type} {ret : α → Ret} {result : Except Fault α} {s t : State}
    (h : answer ret result s = .next t) : t = { s with ret := t.ret } := by
  cases result <;> cases h
  rfl

/-- The pure operations of R56, R84 and R85. -/
def IsPure (i : Instr) : Prop := (∃ a b, i = .step a b) ∨ (∃ a, i = .outputsFor a) ∨ i = .readInputs

theorem exec_pure_frame {i : Instr} {s t : State} (hi : IsPure i) (h : exec i s = .next t) :
    t = { s with ret := t.ret } := by
  have hv := exec_next_valid h
  obtain ⟨a, b, rfl⟩ | ⟨a, rfl⟩ | rfl := hi
  · rw [exec_step a b hv] at h
    exact answer_frame h
  · rw [exec_outputsFor a hv] at h
    exact answer_frame h
  · rw [exec_readInputs hv] at h
    cases h
    rfl

theorem ports_exec_pure {i : Instr} {s t : State} (hi : IsPure i) (h : exec i s = .next t) :
    t.pout = s.pout ∧ t.sport = s.sport := by
  rw [exec_pure_frame hi h]
  exact ⟨rfl, rfl⟩

/-- Settles O49: DWELL, the timer operations and the waits leave all of the outside alone, SAMPLE and NEXT the ports,
write_outputs the history, and the pure operations everything but the returned value. -/
theorem portsAndHistoryFrame : Obligations.PortsAndHistoryFrame := by
  intro i s t h
  refine ⟨fun hi => ?_, fun hi => ?_, fun hi => exec_pure_frame hi h⟩
  · obtain rfl | rfl | rfl | ⟨_, rfl⟩ | rfl | hstep | houtputs | ⟨_, rfl⟩ | ⟨_, rfl⟩ | hread := hi
    · exact (outside_eq_iff.1 (outside_exec_dwell h)).1
    · exact ports_exec_sample h
    · exact ports_exec_next h
    · exact (outside_eq_iff.1 (outside_exec_tmrStart h)).1
    · exact (outside_eq_iff.1 (outside_exec_tmrTick h)).1
    · exact ports_exec_pure (.inl hstep) h
    · exact ports_exec_pure (.inr (.inl houtputs)) h
    · exact (outside_eq_iff.1 (outside_exec_waitTicks h)).1
    · exact (outside_eq_iff.1 (outside_exec_waitUnits h)).1
    · exact ports_exec_pure (.inr (.inr hread)) h
  · obtain rfl | ⟨_, rfl⟩ | rfl | ⟨_, rfl⟩ | ⟨_, rfl⟩ | ⟨_, _, _, rfl⟩ := hi
    · exact (outside_eq_iff.1 (outside_exec_dwell h)).2
    · exact (outside_eq_iff.1 (outside_exec_tmrStart h)).2
    · exact (outside_eq_iff.1 (outside_exec_tmrTick h)).2
    · exact (outside_eq_iff.1 (outside_exec_waitTicks h)).2
    · exact (outside_eq_iff.1 (outside_exec_waitUnits h)).2
    · exact history_exec_writeOutputs h

/-! ### What a step never reads -/

/-- Where the low K bits agree, a SAMPLE tick commutes with a change of the script, save for the event it records. -/
theorem sampleTick_withEnv {env : Env} {s : State}
    (hcode : codeOf s.cfg (readSens (withEnv env s)) = codeOf s.cfg (readSens s)) :
    sampleTick (withEnv env s) =
      { withEnv env (sampleTick s) with history := (sampleTick (withEnv env s)).history } := by
  have hinp : (sampleTick s).inp = (sampleTick (withEnv env s)).inp := hcode.symm
  simp only [withEnv, hinp]
  rfl

/-- Settles O52: IN takes the low K bits, which agree; only the recorded raw value differs. -/
theorem highSensorBitsNeverMatter : Obligations.HighSensorBitsNeverMatter := by
  intro s t env hphase hrst hcode hstep
  have hv : Valid (withEnv env s).cfg := (step_next_valid hstep).1
  have hrst : rstNow (withEnv env s) = rstNow s := hrst
  cases stepTo_of_step hstep with
  | reset hr => exact ⟨s.history, step_of_stepTo hv (.reset (hrst.trans hr))⟩
  | sample hr hp hc =>
    have hsample := step_of_stepTo hv (.sample (hrst.trans hr) hp hc)
    rw [sampleTick_withEnv hcode] at hsample
    exact ⟨_, hsample⟩
  | out _ hp => exact nomatch hphase.symm.trans hp
  | dwell _ hp => exact nomatch hphase.symm.trans hp
  | next _ hp => exact nomatch hphase.symm.trans hp

/-- The same state with another history. -/
def withHistory (h : List Event) (s : State) : State := { s with history := h }

/-- A DWELL tick commutes with a change of the history: none of its conditions reads it. -/
theorem dwellTick_withHistory (h : List Event) (s : State) :
    dwellTick (withHistory h s) = withHistory h (dwellTick s) := by
  unfold dwellTick unitTick countUnit
  simp only [apply_ite (withHistory h)]
  rfl

/-- With another history a step does the same and appends the same events. -/
theorem stepTo_withHistory (h : List Event) {s t : State} (hst : StepTo s t) :
    ∃ new, t.history = s.history ++ new ∧ StepTo (withHistory h s) (withHistory (h ++ new) t) := by
  cases hst with
  | reset hr => exact ⟨[], (List.append_nil _).symm, (List.append_nil h).symm ▸ .reset (s := withHistory h s) hr⟩
  | out hr hp hrow => exact ⟨_, rfl, .out (s := withHistory h s) hr hp hrow⟩
  | dwell hr hp hc =>
    have hdwell := StepTo.dwell (s := withHistory h s) hr hp hc
    rw [dwellTick_withHistory] at hdwell
    exact ⟨[], by simp, (List.append_nil h).symm ▸ hdwell⟩
  | sample hr hp hc => exact ⟨_, rfl, .sample (s := withHistory h s) hr hp hc⟩
  | next hr hp hrow htarget => exact ⟨_, rfl, .next (s := withHistory h s) hr hp hrow htarget⟩

/-- Settles O53: `stepTo_withHistory` at a configuration that the step found valid. -/
theorem historyIsWrittenNeverRead : Obligations.HistoryIsWrittenNeverRead := by
  intro s t h hstep
  obtain ⟨new, hnew, hst⟩ := stepTo_withHistory h (stepTo_of_step hstep)
  have hv : Valid (withHistory h s).cfg := (step_next_valid hstep).1
  exact ⟨new, hnew, step_of_stepTo hv hst⟩

end Sys2Proof.Proofs
end

section
/-! Words of the three formats (30_encoding.md R60, R61, R64, R65): each decoder inverts its encoder and no word but an
encoding decodes. -/

namespace Sys2Proof.Proofs

open Sys2Proof.Machine Sys2Proof.Laws

/-! ### Row words -/

/-- From bit `a` upward stand the `b` bits there and, above them, the rest of the word. -/
theorem bitsAt_add_mul_div (w a b : Nat) : bitsAt w a b + 2 ^ b * (w / 2 ^ (a + b)) = w / 2 ^ a := by
  have h := bits_split (w / 2 ^ a) b
  rwa [bitsAt_div, Nat.add_zero, Nat.div_div_eq_div_mul, ← pow_add] at h

/-- The packed next entries of a word are all that stands above its dwell container. -/
theorem packNext_nextEntries {c : Config} {w : Nat} (hw : w < 2 ^ c.rowW) :
    packNext c.nextW (nextEntries c w) = w / 2 ^ c.nextLo := by
  have hentries : nextEntries c w =
      (List.range c.ncodes).map fun code => bitsAt (w / 2 ^ c.nextLo) (code * c.nextW) c.nextW :=
    List.map_congr_left fun code _ => (bitsAt_div w c.nextLo (code * c.nextW) c.nextW).symm
  rw [hentries]
  refine packNext_containers _ _ _ ?_
  rw [Nat.div_lt_iff_lt_mul (Nat.two_pow_pos _), ← pow_add, Nat.add_comm]
  exact hw

/-- Encoding what a row word decodes to puts the containers back in their places. -/
theorem encodeRow_decodeRow {c : Config} {w : Nat} {r : Row} (h : decodeRow c w = .ok r) : encodeRow c r = w := by
  obtain ⟨hw, hpo, -, hso, -, hdwell, -, hnext, -⟩ := (decodeRow_ok_iff c w r).1 h
  calc encodeRow c r
      = r.po + 2 ^ c4 c.pw * (r.so + 2 ^ c4 c.sportW * (r.dwell + 2 ^ c4 c.dwellW * (w / 2 ^ c.nextLo))) := by
        rw [encodeRow, hnext, packNext_nextEntries hw]
    _ = r.po + 2 ^ c4 c.pw * (r.so + 2 ^ c4 c.sportW * (w / 2 ^ c.dwellLo)) := by
        rw [hdwell, Config.nextLo, ← Config.dwellLo, bitsAt_add_mul_div]
    _ = r.po + 2 ^ c4 c.pw * (w / 2 ^ c.soLo) := by
        rw [hso, Config.dwellLo, ← Config.soLo, bitsAt_add_mul_div]
    _ = w := by rw [hpo, Config.soLo, bits_split]

/-- The row words that decode are the encodings of well-formed rows. -/
theorem decodeRow_ok_iff_encodeRow {c : Config} {w : Nat} {r : Row} :
    decodeRow c w = .ok r ↔ r.WF c ∧ encodeRow c r = w := by
  constructor
  · exact fun h => ⟨decodeRow_wf c w r h, encodeRow_decodeRow h⟩
  · rintro ⟨hwf, rfl⟩
    exact decodeRow_encodeRow c r hwf

/-! ### Phase codes and timer commands -/

theorem decodePhase_ok_iff {w : Nat} {p : Phase} : decodePhase w = .ok p ↔ p.code = w := by
  constructor
  · intro h
    unfold decodePhase at h
    split at h <;> cases h <;> rfl
  · rintro rfl
    cases p <;> rfl

theorem encode_ofPhase (c : Config) (p : Phase) : encode c (Instr.ofPhase p) = some (.phase, p.code) := by
  cases p <;> rfl

theorem ofPhase_wf (c : Config) (p : Phase) : (Instr.ofPhase p).wf c = true := by
  cases p <;> rfl

/-- The timer commands that decode: TMR_START with the operand of its range above TSTART, and the zero word. -/
theorem decodeTcmd_ok_iff {w : Nat} {i : Instr} : decodeTcmd w = .ok i ↔
    (∃ n, i = .tmrStart n ∧ TicksInRange n ∧ 1 + 2 * (n - 1) = w) ∨ (i = .tmrTick ∧ 0 = w) := by
  have htstart : bitsAt w 0 1 = w % 2 := by simp [bitsAt]
  have hoperand : bitsAt w 1 24 = w / 2 % 2 ^ 24 := by simp [bitsAt, Nat.shiftRight_eq_div_pow]
  rw [decodeTcmd, htstart, hoperand]
  constructor
  · intro h
    split_ifs at h with hwide hstart hzero <;> cases h
    · exact .inl ⟨_, rfl, ⟨by omega, by omega⟩, by omega⟩
    · exact .inr ⟨rfl, by omega⟩
  · rintro (⟨n, rfl, ⟨hn1, hn2⟩, rfl⟩ | ⟨rfl, rfl⟩)
    · rw [if_neg (by omega), if_pos (by omega), show (1 + 2 * (n - 1)) / 2 % 2 ^ 24 + 1 = n by omega]
    · rfl

/-! ### Operations -/

theorem decode_row_ok_iff {c : Config} {w : Nat} {i : Instr} :
    decode c .row w = .ok i ↔ ∃ r, decodeRow c w = .ok r ∧ .state r = i := by
  cases h : decodeRow c w <;> simp [decode, h, Except.map]

theorem decode_phase_ok_iff {c : Config} {w : Nat} {i : Instr} :
    decode c .phase w = .ok i ↔ ∃ p, decodePhase w = .ok p ∧ .ofPhase p = i := by
  cases h : decodePhase w <;> simp [decode, h, Except.map]

/-- The words that decode are the encodings of well-formed operations: R61 in both directions. -/
theorem decode_ok_iff {c : Config} {f : Format} {w : Nat} {i : Instr} :
    decode c f w = .ok i ↔ i.wf c = true ∧ encode c i = some (f, w) := by
  constructor
  · intro h
    cases f with
    | row =>
      obtain ⟨r, hrow, rfl⟩ := decode_row_ok_iff.1 h
      obtain ⟨hwf, rfl⟩ := decodeRow_ok_iff_encodeRow.1 hrow
      exact ⟨beq_iff_eq.2 hwf, rfl⟩
    | phase =>
      obtain ⟨p, hphase, rfl⟩ := decode_phase_ok_iff.1 h
      obtain rfl := decodePhase_ok_iff.1 hphase
      exact ⟨ofPhase_wf c p, encode_ofPhase c p⟩
    | tcmd =>
      obtain ⟨n, rfl, hn, rfl⟩ | ⟨rfl, rfl⟩ := decodeTcmd_ok_iff.1 h
      · exact ⟨decide_eq_true hn, rfl⟩
      · exact ⟨rfl, rfl⟩
  · rintro ⟨hwf, he⟩
    cases i with
    | state r =>
      cases he
      exact decode_row_ok_iff.2 ⟨r, decodeRow_ok_iff_encodeRow.2 ⟨beq_iff_eq.1 hwf, rfl⟩, rfl⟩
    | out | dwell | sample | next => cases he; rfl
    | tmrStart n => cases he; exact decodeTcmd_ok_iff.2 (.inl ⟨n, rfl, of_decide_eq_true hwf, rfl⟩)
    | tmrTick => cases he; exact decodeTcmd_ok_iff.2 (.inr ⟨rfl, rfl⟩)
    | step | outputsFor | run | waitTicks | waitUnits | readInputs | writeOutputs => cases he

/-- Settles O2: `decode_ok_iff`, from right to left. -/
theorem decodeInvertsEncode : Obligations.DecodeInvertsEncode :=
  fun _ _ _ _ hwf he => decode_ok_iff.2 ⟨hwf, he⟩

/-- Settles O3: `decode_ok_iff`, from left to right. -/
theorem encodeInvertsDecode : Obligations.EncodeInvertsDecode :=
  fun _ _ _ _ h => (decode_ok_iff.1 h).symm

end Sys2Proof.Proofs
end

section
/-! The layout of a row word (30_encoding.md R60): every container holds its field in its low bits and zero above. -/

namespace Sys2Proof.Proofs

open Sys2Proof.Machine Sys2Proof.Laws

/-- A field of a field. -/
theorem bitsAt_bitsAt (word lo d : Nat) {k w : Nat} (h : k + w ≤ d) :
    bitsAt (bitsAt word lo d) k w = bitsAt word (lo + k) w := by
  calc bitsAt (bitsAt word lo d) k w
      = bitsAt (bitsAt (word / 2 ^ lo) 0 d + 2 ^ d * (word / 2 ^ lo / 2 ^ d)) k w := by
        rw [bitsAt_add_low _ _ _ _ _ h, bitsAt_div, Nat.add_zero]
    _ = bitsAt word (lo + k) w := by rw [bits_split, bitsAt_div]

/-- A container whose value has `w` bits: the field is its low bits, and its padding is zero. -/
theorem field_of_container {word lo w v : Nat} (hv : v < 2 ^ w) (h : v = bitsAt word lo (c4 w)) :
    bitsAt word lo w = v ∧ bitsAt word (lo + w) (c4 w - w) = 0 := by
  have hle := le_c4 w
  constructor
  · calc bitsAt word lo w
        = bitsAt v 0 w := by rw [h, bitsAt_bitsAt _ _ _ (by omega), Nat.add_zero]
      _ = v := bitsAt_zero_of_lt v w hv
  · calc bitsAt word (lo + w) (c4 w - w)
        = bitsAt v w (c4 w - w) := by rw [h, bitsAt_bitsAt _ _ _ (by omega)]
      _ = 0 := bitsAt_padding v w _ hv

/-- The next entry of a code is its container. -/
theorem nextEntries_getElem {c : Config} {w code t : Nat} (h : (nextEntries c w)[code]? = some t) :
    t = bitsAt w (c.nextLo + code * c.nextW) c.nextW := by
  rw [nextEntries, List.getElem?_map, Option.map_eq_some_iff] at h
  obtain ⟨_, hcode, rfl⟩ := h
  obtain ⟨_, rfl⟩ := List.getElem?_eq_some_iff.1 hcode
  simp

/-- Settles O4: the containers of an encoded row are those the decoder reads back. -/
theorem rowFieldsStandInTheirContainers : Obligations.RowFieldsStandInTheirContainers := by
  refine ⟨fun c r hwf => ?_, by decide⟩
  obtain ⟨-, hpo, hpoLt, hso, hsoLt, hdwell, hdwellLt, hnext, htargets⟩ :=
    (decodeRow_ok_iff c _ r).1 (decodeRow_encodeRow c r hwf)
  obtain ⟨hpoField, hpoPad⟩ := field_of_container hpoLt hpo
  obtain ⟨hsoField, hsoPad⟩ := field_of_container hsoLt hso
  obtain ⟨hdwellField, hdwellPad⟩ := field_of_container hdwellLt hdwell
  rw [Nat.zero_add] at hpoPad
  refine ⟨hpoField, hpoPad, hsoField, hsoPad, hdwellField, hdwellPad, fun code t ht => ?_, encodeRow_lt c r hwf⟩
  have htLt : t < 2 ^ c.sw := (htargets t (List.mem_of_getElem? ht)).trans_le (nstates_le_sw c)
  exact field_of_container htLt (nextEntries_getElem (hnext ▸ ht))

end Sys2Proof.Proofs
end

section
/-! Table images (30_encoding.md R72). -/

namespace Sys2Proof.Proofs

open Sys2Proof.Machine Sys2Proof.Laws

/-- A row word fits the whole bytes that hold it. -/
theorem two_pow_rowW_le (c : Config) : 2 ^ c.rowW ≤ 256 ^ rowBytes c := by
  rw [show 256 = 2 ^ 8 by rfl, ← pow_mul]
  exact Nat.pow_le_pow_right (by decide) (by rw [rowBytes]; omega)

theorem imageOf_cons (c : Config) (w : Nat) (ws : List Nat) :
    imageOf c (w :: ws) = bytesOf (rowBytes c) w ++ imageOf c ws := List.flatMap_cons

theorem imageOf_length (c : Config) : ∀ ws : List Nat, (imageOf c ws).length = ws.length * rowBytes c
  | [] => (Nat.zero_mul _).symm
  | w :: ws => by
    rw [imageOf_cons, List.length_append, bytesOf_length, imageOf_length c ws, List.length_cons, Nat.succ_mul, Nat.add_comm]

/-- The splitter takes one row's bytes off the front of an image and goes on with the rest. -/
theorem wordsOf_imageOf {c : Config} : ∀ {ws : List Nat}, (∀ w ∈ ws, w < 2 ^ c.rowW) →
    wordsOf c ws.length (imageOf c ws) = .ok ws
  | [], _ => rfl
  | w :: ws, h => by
    have hlt : w < 2 ^ c.rowW := h w List.mem_cons_self
    have hrest := wordsOf_imageOf fun v hv => h v (List.mem_cons_of_mem w hv)
    have hword : ofBytes (bytesOf (rowBytes c) w) = w := ofBytes_bytesOf _ _ (hlt.trans_le (two_pow_rowW_le c))
    have htake : (imageOf c (w :: ws)).take (rowBytes c) = bytesOf (rowBytes c) w := by
      rw [imageOf_cons, List.take_left' (bytesOf_length _ _)]
    have hdrop : (imageOf c (w :: ws)).drop (rowBytes c) = imageOf c ws := by
      rw [imageOf_cons, List.drop_left' (bytesOf_length _ _)]
    rw [List.length_cons, wordsOf, htake, hdrop, hword, hrest, if_neg (not_not_intro (bytesOf_length _ _)),
      if_neg (Nat.not_le.2 hlt)]
    rfl

/-- Byte `j` of row `s` stands `s` whole rows into the image. -/
theorem imageOf_getElem {c : Config} {w j : Nat} (hj : j < rowBytes c) : ∀ {ws : List Nat} {s : Nat}, ws[s]? = some w →
    (imageOf c ws)[s * rowBytes c + j]? = (bytesOf (rowBytes c) w)[j]?
  | v :: ws, 0, h => by
    cases h
    rw [imageOf_cons, Nat.zero_mul, Nat.zero_add, List.getElem?_append_left (by rwa [bytesOf_length])]
  | v :: ws, s + 1, h => by
    have hplace : (s + 1) * rowBytes c + j - rowBytes c = s * rowBytes c + j := by rw [Nat.succ_mul]; omega
    rw [imageOf_cons, List.getElem?_append_right (by rw [bytesOf_length, Nat.succ_mul]; omega), bytesOf_length, hplace]
    exact imageOf_getElem hj h

/-- Settles O5: the image row by row; the worked row is computed. -/
theorem tableImageReadsBack : Obligations.TableImageReadsBack := by
  refine ⟨fun c ws hws => ⟨wordsOf_imageOf hws, imageOf_length c ws, fun s w j hw hj => ?_⟩, by decide⟩
  exact (congrArg _ (imageOf_getElem hj hw)).trans (bytesOf_get _ w j hj)

end Sys2Proof.Proofs
end

section
/-! What a step executes (10_state.md R11, 30_encoding.md R64), and the CUR that names no row (30_encoding.md R68). -/

namespace Sys2Proof.Proofs

open Sys2Proof.Machine Sys2Proof.Laws

/-! ### The decoded operation -/

/-- PH's word decodes to the operation that a step runs. -/
theorem decode_phase_code (c : Config) (p : Phase) : decode c .phase p.code = .ok (Instr.ofPhase p) :=
  decode_ok_iff.2 ⟨ofPhase_wf c p, encode_ofPhase c p⟩

theorem onEdge_congr {op op' : State → Except Fault State} {s : State} (h : op s = op' s) : onEdge op s = onEdge op' s := by
  rw [onEdge, onEdge, h]

/-- A step is the tick of PH's phase on the row of CUR. -/
theorem step_eq_phaseTick {s : State} {r : Row} (hv : Valid s.cfg) (hrow : rowAt s.cfg s.cur = .ok r) :
    step s = (onEdge (phaseTick r) s).outcome := by
  have hc := rowAt_lt hrow
  rw [step_eq]
  cases hp : s.ph with
  | out => exact (exec_out hv).trans (congrArg _ (onEdge_congr (by rw [withRow_row _ hrow, phaseTick, hp])))
  | dwell => exact (exec_dwell hv).trans (congrArg _ (onEdge_congr (by rw [withCur_lt _ hc, phaseTick, hp])))
  | sample => exact (exec_sample hv).trans (congrArg _ (onEdge_congr (by rw [withCur_lt _ hc, phaseTick, hp])))
  | next => exact (exec_next hv).trans (congrArg _ (onEdge_congr (by rw [withRow_row _ hrow, phaseTick, hp])))

/-- A well-formed row word under execution is the tick of PH's phase on its own row. -/
theorem exec_state_eq_phaseTick {s : State} {r : Row} (hv : Valid s.cfg) (hc : s.cur < s.cfg.nstates) (hwf : r.WF s.cfg) :
    exec (.state r) s = (onEdge (phaseTick r) s).outcome := by
  rw [exec_state r hv, onEdge_congr ((withCur_lt _ hc).trans (rowTick_wf hwf))]

/-- Settles O28: PH decodes to the operation a step runs, and at the row of CUR both are the same tick. -/
theorem stepRunsTheDecodedOperation : Obligations.StepRunsTheDecodedOperation := by
  refine fun s hv => ⟨fun i hi => ?_, fun w i hc hread hi => ?_⟩
  · cases (decode_phase_code s.cfg s.ph).symm.trans hi
    exact step_eq s
  · obtain ⟨r, hdecode, rfl⟩ := decode_row_ok_iff.1 hi
    have hrow : rowAt s.cfg s.cur = .ok r := (rowAt_ok_iff _ _ _).2 ⟨hc, w, hread, hdecode⟩
    rw [step_eq_phaseTick hv hrow, exec_state_eq_phaseTick hv hc (rowAt_wf hrow)]

/-! ### A CUR that names no row -/

/-- The operations that stand on CUR: a row word, the four phases and the loop of them. -/
def IsEngine (i : Instr) : Prop := (∃ r, i = .state r) ∨ i = .out ∨ i = .dwell ∨ i = .sample ∨ i = .next ∨ i = .run

theorem ofPhase_isEngine (p : Phase) : IsEngine (Instr.ofPhase p) := by
  cases p <;> simp [IsEngine, Instr.ofPhase]

/-- Every engine operation begins with an edge at which it asks for the row of CUR. -/
theorem exec_engine_ge {i : Instr} {s : State} (hi : IsEngine i) (hv : Valid s.cfg) (hc : s.cfg.nstates ≤ s.cur)
    (hr : rstNow s = false) : exec i s = .fault (.tableInvalid .identifier s.cur) := by
  obtain ⟨r, rfl⟩ | rfl | rfl | rfl | rfl | rfl := hi
  · exact checked_edge_fault hv hr (withCur_ge _ hc)
  · exact checked_edge_fault hv hr (withCur_ge _ hc)
  · exact checked_edge_fault hv hr (withCur_ge _ hc)
  · exact checked_edge_fault hv hr (withCur_ge _ hc)
  · exact checked_edge_fault hv hr (withCur_ge _ hc)
  · rw [exec_run hv, iteration, onEdge_fault hr (withCur_ge _ hc)]
    rfl

/-- Settles O19: with RST = 0 every engine operation faults, the one a step runs among them; a reset puts INIT into CUR. -/
theorem curThatNamesNoRowHasNoMeaning : Obligations.CurThatNamesNoRowHasNoMeaning :=
  fun s hv hc =>
    ⟨fun hr => ⟨exec_engine_ge (ofPhase_isEngine s.ph) hv hc hr, fun _ hi => exec_engine_ge hi hv hc hr⟩,
     fun hr => ⟨_, step_reset hv hr, valid_init hv⟩⟩

end Sys2Proof.Proofs
end

section
/-! One tick of each phase and the pure functions of the table (40_engine_ops.md R80 to R85). -/

namespace Sys2Proof.Proofs

open Sys2Proof.Machine Sys2Proof.Laws

/-! ### The phases -/

/-- Settles O13: `outTick` in its two cases, the shared port's merge being `maskedWrite` written out. -/
theorem outDrivesPortsAndLoadsDwell : Obligations.OutDrivesPortsAndLoadsDwell :=
  fun _ _ hv hr hrow =>
    ⟨fun hd => exec_out_quiet hv hr hrow (outTick_zero (rowAt_wf hrow) hd),
     fun hd => exec_out_quiet hv hr hrow (outTick_pos (rowAt_wf hrow) hd (valid_ticks hv))⟩

/-- Within a unit a DWELL tick is a tick of the timer. -/
theorem dwellTick_of_not_expire {s : State} (he : expire false s = false) : dwellTick s = timerTick s :=
  if_neg (Bool.eq_false_iff.1 he)

theorem timerTick_of_expire {s : State} (he : expire false s = true) : timerTick s = { s with cnt := 0 } := by
  rw [timerTick, (expire_iff s).1 he]

/-- The last unit over, DWELL leaves for SAMPLE. -/
theorem dwellTick_of_last {s : State} (he : expire false s = true) (hu : s.ucnt = 1) :
    dwellTick s = { s with cnt := 0, ucnt := 0, ph := .sample } := by
  rw [dwellTick, unitTick, if_pos he, if_pos hu, timerTick_of_expire he]
  rfl

/-- At the end of any other unit the unit counter counts. -/
theorem dwellTick_of_expire {s : State} (he : expire false s = true) (hu : s.ucnt ≠ 1) :
    dwellTick s = countUnit { s with cnt := 0 } := by
  rw [dwellTick, unitTick, if_pos he, if_neg hu, timerTick_of_expire he]

theorem countUnit_of_ne_zero {s : State} (hu : s.ucnt ≠ 0) : countUnit s = { s with ucnt := s.ucnt - 1 } := if_neg hu

theorem countUnit_of_zero {s : State} (hu : s.ucnt = 0) : countUnit s = drawUnits s := if_pos hu

/-- Settles O14: the four cases of a DWELL tick. -/
theorem dwellTickCountsUnits : Obligations.DwellTickCountsUnits := by
  intro s hv hc hr
  have hexec := exec_dwell_quiet hv hr hc
  refine ⟨fun he => ?_, fun he hu => ?_, fun he hu => ?_, fun he hu => ?_⟩
  · rw [hexec, dwellTick_of_not_expire he]
    rfl
  · rw [hexec, dwellTick_of_last he hu]
  · rw [hexec, dwellTick_of_expire he (by omega), countUnit_of_ne_zero (s := { s with cnt := 0 }) (Nat.ne_zero_of_lt hu)]
  · rw [hexec, dwellTick_of_expire he (by omega), countUnit_of_zero (s := { s with cnt := 0 }) hu]
    exact ⟨_, trunc_lt _ _, rfl⟩

/-- Settles O16: the code is the boundary's value cut to K bits. -/
theorem sampleLatchesTheLowBits : Obligations.SampleLatchesTheLowBits :=
  fun _ hv hc hr => exec_sample_quiet hv hr hc

/-- Settles O17: a well-formed row has an entry below NSTATES for every code, and it is the one given. -/
theorem nextFollowsTheTable : Obligations.NextFollowsTheTable := by
  intro s r target hv hr hrow hin hget
  obtain ⟨_, hentry, hlt, htarget⟩ := targetOf_wf (st := s.cur) (rowAt_wf hrow) hin
  cases hget.symm.trans hentry
  exact ⟨hlt, exec_next_quiet hv hr hrow (nextTick_ok htarget)⟩

/-! ### The pure functions -/

theorem rowAt_ge {c : Config} {st : Nat} (h : c.nstates ≤ st) : rowAt c st = .error (.stateRange st) :=
  if_neg (Nat.not_lt.2 h)

theorem outputsLookup_of_row {c : Config} {st : Nat} {r : Row} (h : rowAt c st = .ok r) :
    outputsLookup c st = .ok (r.po, r.so) := by
  rw [outputsLookup, h]
  rfl

theorem outputsLookup_ge {c : Config} {st : Nat} (h : c.nstates ≤ st) :
    outputsLookup c st = .error (.stateRange st) := by
  rw [outputsLookup, rowAt_ge h]
  rfl

/-- Settles O22: every row of a valid configuration can be read, and no other identifier names one. -/
theorem outputsForReadsTheRow : Obligations.OutputsForReadsTheRow := by
  intro c st hv
  refine ⟨fun hst => ?_, fun hst => ?_⟩
  · obtain ⟨r, hrow⟩ := valid_row hv hst
    refine ⟨r, hrow, ?_⟩
    rintro s rfl
    rw [exec_outputsFor st hv, outputsLookup_of_row hrow, answer_ok]
  · rintro s rfl
    rw [exec_outputsFor st hv, outputsLookup_ge hst, answer_error]

/-- `step` is total on its domain and stays in the table (40_engine_ops.md R84). -/
theorem stepLookup_total {c : Config} {st code : Nat} {r : Row} (hrow : rowAt c st = .ok r) (hcode : code < 2 ^ c.k) :
    ∃ target, r.next[code]? = some target ∧ target < c.nstates ∧ stepLookup c st code = .ok target := by
  rw [stepLookup_of_row hrow]
  exact targetOf_wf (rowAt_wf hrow) hcode

theorem stepLookup_code_ge {c : Config} {code : Nat} (st : Nat) (h : 2 ^ c.k ≤ code) :
    stepLookup c st code = .error (.inputCodeRange st code) := if_neg (Nat.not_lt.2 h)

theorem stepLookup_state_ge {c : Config} {st code : Nat} (h : c.nstates ≤ st) (hcode : code < 2 ^ c.k) :
    stepLookup c st code = .error (.stateRange st) := by
  rw [stepLookup, Config.ncodes, if_pos hcode, rowAt_ge h]

/-- Settles O20: the lookup reads the configuration alone, so its three cases hold from every state with that table. -/
theorem stepIsATotalTableLookup : Obligations.StepIsATotalTableLookup := by
  intro c st code hv
  refine ⟨fun hst hcode => ?_, fun _ hcode => ?_, fun hst hcode => ?_⟩
  · obtain ⟨r, hrow⟩ := valid_row hv hst
    obtain ⟨target, hget, hlt, hlookup⟩ := stepLookup_total hrow hcode
    refine ⟨r, target, hrow, hget, hlt, ?_⟩
    rintro s rfl
    rw [exec_step st code hv, hlookup, answer_ok]
  · rintro s rfl
    rw [exec_step st code hv, stepLookup_code_ge st hcode, answer_error]
  · rintro s rfl
    rw [exec_step st code hv, stepLookup_state_ge hst hcode, answer_error]

/-! ### The ports after a step -/

/-- The ports after a step, from what a Moore machine may read: OUT drives the row of CUR, nothing else drives them. -/
def drivenPorts (s : State) : Nat × Nat :=
  if rstNow s = false ∧ s.ph = .out then
    match rowAt s.cfg s.cur with
    | .ok r => (r.po, maskedWrite s.cfg.sportW s.sport r.so s.cfg.smask)
    | .error _ => (s.pout, s.sport)
  else (s.pout, s.sport)

theorem drivenPorts_of_out {s : State} {r : Row} (hr : rstNow s = false) (hp : s.ph = .out)
    (hrow : rowAt s.cfg s.cur = .ok r) :
    drivenPorts s = (r.po, maskedWrite s.cfg.sportW s.sport r.so s.cfg.smask) := by
  rw [drivenPorts, if_pos ⟨hr, hp⟩, hrow]

theorem drivenPorts_of_reset {s : State} (hr : rstNow s = true) : drivenPorts s = (s.pout, s.sport) :=
  if_neg fun h => by simp [hr] at h

theorem drivenPorts_of_ne_out {s : State} (hp : s.ph ≠ .out) : drivenPorts s = (s.pout, s.sport) :=
  if_neg fun h => hp h.2

/-- `drivenPorts` is what a step drives. -/
theorem stepTo_ports {s t : State} (h : StepTo s t) : (t.pout, t.sport) = drivenPorts s := by
  cases h with
  | reset hr => exact (drivenPorts_of_reset hr).symm
  | out hr hp hrow => exact (drivenPorts_of_out hr hp hrow).symm
  | dwell _ hp => rw [drivenPorts_of_ne_out (by simp [hp])]; simp
  | sample _ hp => rw [drivenPorts_of_ne_out (by simp [hp])]; rfl
  | next _ hp => rw [drivenPorts_of_ne_out (by simp [hp])]; rfl

/-- Settles O50: `drivenPorts` reads nothing but what the two states share. -/
theorem outputsDependOnTheStateAlone : Obligations.OutputsDependOnTheStateAlone := by
  intro s s' t t' hcfg hcur hph hpout hsport hstep hstep' hrst
  have hsame : drivenPorts s' = drivenPorts s := by simp only [drivenPorts, hcfg, hcur, hph, hpout, hsport, hrst]
  have hports : (t'.pout, t'.sport) = (t.pout, t.sport) := calc
    (t'.pout, t'.sport) = drivenPorts s' := stepTo_ports (stepTo_of_step hstep')
    _ = drivenPorts s := hsame
    _ = (t.pout, t.sport) := (stepTo_ports (stepTo_of_step hstep)).symm
  exact Prod.mk.inj hports

end Sys2Proof.Proofs
end

section
/-! The dwell and the pass of the loop (40_engine_ops.md R81, R86, R87, 41_timing_ops.md R105). -/

namespace Sys2Proof.Proofs

open Sys2Proof.Machine Sys2Proof.Laws

/-! ### The whole dwell -/

/-- In DWELL, with units to go. -/
structure Dwelling (s : State) : Prop where
  valid : Valid s.cfg
  cur : s.cur < s.cfg.nstates
  ph : s.ph = .dwell
  ucnt : 1 ≤ s.ucnt

theorem step_dwelling {s : State} (h : Dwelling s) (hr : rstNow s = false) : step s = .next (after 1 (dwellTick s)) :=
  step_of_stepTo h.valid (.dwell hr h.ph h.cur)

/-- A tick before the last changes CNT and UCNT, and one tick less remains. -/
theorem step_dwelling_going {s : State} (h : Dwelling s) (hr : rstNow s = false) (hm : unitsRemaining s ≠ 1) :
    ∃ u, step s = .next (after 1 (State.setUcnt u (timerTick s))) ∧ Dwelling (after 1 (State.setUcnt u (timerTick s))) ∧
      unitsRemaining (after 1 (State.setUcnt u (timerTick s))) + 1 = unitsRemaining s := by
  obtain ⟨u, hu, -, htick, hrem⟩ := unitTick_going (State.setPh .sample) h.ucnt hm
  exact ⟨u, htick ▸ step_dwelling h hr, ⟨h.valid, h.cur, h.ph, hu⟩, hrem⟩

theorem step_dwelling_last {s : State} (h : Dwelling s) (hr : rstNow s = false) (hm : unitsRemaining s = 1) :
    step s = .next (after 1 { s with ucnt := 0, cnt := 0, ph := .sample }) := by
  obtain ⟨-, -, htick⟩ := unitTick_last (State.setPh .sample) h.ucnt hm
  rw [step_dwelling h hr, dwellTick, htick]
  rfl

theorem unitsRemaining_pos (s : State) : 1 ≤ unitsRemaining s :=
  (remaining_pos s).trans (Nat.le_add_left _ _)

theorem after_succ (n : Nat) (s : State) : after (n + 1) s = after n (after 1 s) := by
  rw [after_after, Nat.add_comm]

/-- The dwell ends with the ticks that remain. -/
theorem runTicks_dwelling : ∀ {m : Nat} {s : State}, Dwelling s → unitsRemaining s = m → QuietFor s m →
    runTicks m s = .next (after m { s with ucnt := 0, cnt := 0, ph := .sample })
  | 0, s, _, hm, _ => by
    have hpos := unitsRemaining_pos s
    omega
  | m + 1, s, h, hm, hq => by
    by_cases hlast : unitsRemaining s = 1
    · obtain rfl : m = 0 := by omega
      rw [runTicks_succ 0 (step_dwelling_last h (quietFor_now hq) hlast), runTicks_zero]
    · obtain ⟨u, hstep, hgoing, hrem⟩ := step_dwelling_going h (quietFor_now hq) hlast
      rw [runTicks_succ m hstep, runTicks_dwelling hgoing (by omega) (quietFor_next hq rfl rfl), after_succ m]
      rfl

/-- Before that the engine is in DWELL, with only the two counts changed. -/
theorem runTicks_dwelling_before : ∀ {j : Nat} {s : State}, Dwelling s → j < unitsRemaining s → QuietFor s j →
    ∃ cnt ucnt, runTicks j s = .next (after j { s with cnt := cnt, ucnt := ucnt })
  | 0, s, _, _, _ => ⟨s.cnt, s.ucnt, rfl⟩
  | j + 1, s, h, hj, hq => by
    obtain ⟨u, hstep, hgoing, hrem⟩ := step_dwelling_going h (quietFor_now hq) (by omega)
    obtain ⟨cnt, ucnt, hrun⟩ := runTicks_dwelling_before hgoing (by omega) (quietFor_next hq rfl rfl)
    refine ⟨cnt, ucnt, ?_⟩
    rw [runTicks_succ j hstep, hrun, after_succ j]
    rfl

/-- At the start of a unit UCNT whole units remain. -/
theorem unitsRemaining_whole {s : State} (hu : 1 ≤ s.ucnt) (hc : s.cnt = 0) :
    unitsRemaining s = s.ucnt * (s.reload.toNat + 1) := by
  rw [unitsRemaining, remaining, if_pos hc, ← Nat.succ_mul, Nat.succ_eq_add_one, Nat.sub_add_cancel hu]

/-- Settles O15: on entry exactly `d` whole units remain. -/
theorem dwellLastsExactlyItsUnits : Obligations.DwellLastsExactlyItsUnits := by
  rintro s d hv hc hp rfl hd hcnt hreload hq
  have hdwell : Dwelling s := ⟨hv, hc, hp, hd⟩
  have hrem : unitsRemaining s = s.ucnt * s.cfg.unitTicks := hreload ▸ unitsRemaining_whole hd hcnt
  exact ⟨runTicks_dwelling hdwell hrem hq, fun j hj =>
    runTicks_dwelling_before hdwell (hrem ▸ hj) (quietFor_mono hq hj.le)⟩

/-! ### One pass -/

/-- The state at the end of the wait that OUT starts, PH aside (40_engine_ops.md R86, R87). -/
def waited (r : Row) (s : State) : State := after (r.dwell * s.cfg.unitTicks + 1) (State.setUcnt 0 (outResult r s))

/-- The state after the sample of a pass, PH aside. -/
def sampled (r : Row) (s : State) : State := after 1 (latchInput (timerTick (waited r s)))

/-- The code of a pass is the boundary at the tick after the wait, cut to K bits (40_engine_ops.md R87). -/
theorem sampled_inp (r : Row) (s : State) :
    (sampled r s).inp = sensAt s.cfg s.env (s.edges + r.dwell * s.cfg.unitTicks + 2) % 2 ^ s.cfg.k := rfl

/-- The state at the end of a pass that goes to `target`. -/
def passResult (r : Row) (target : Nat) (s : State) : State := after 1 (nextResult target (sampled r s))

/-- The first edge of an iteration is OUT's effect, PH aside. -/
theorem iterationStart_eq {s : State} {r : Row} (hv : Valid s.cfg) (hrow : rowAt s.cfg s.cur = .ok r) :
    iterationStart s = .ok (State.setPh s.ph (outResult r s)) := by
  have hdrive := driveOutputs_eq s (row_po_lt (rowAt_wf hrow))
  have hstart : iterationStart s = startUnits r.dwell (driveOutputs r.po r.so s) := by
    rw [iterationStart, outputsLookup_of_row hrow, hrow]
  by_cases hd : r.dwell = 0
  · rw [hstart, hd, startUnits_zero, hdrive]
    simp [outResult, hd, State.setPh, nextCount]
  · rw [hstart, startUnits_pos (driveOutputs r.po r.so s) hd (valid_ticks hv), hdrive]
    simp [outResult, hd, State.setPh]

/-- The last edge of an iteration is NEXT's effect. -/
theorem iterationEnd_eq {s : State} {target : Nat} (h : stepLookup s.cfg s.cur s.inp = .ok target) :
    iterationEnd s = .ok (nextResult target s) := by
  rw [iterationEnd, h]
  rfl

/-- What the wait of a nonzero dwell starts with: `dwell` whole units to go, and the count at zero. -/
theorem outResult_waits {r : Row} {s : State} (hv : Valid s.cfg) (hd : r.dwell ≠ 0) :
    unitsRemaining (outResult r s) = r.dwell * s.cfg.unitTicks ∧
    State.setUcnt 0 (outResult r s) = { outResult r s with ucnt := 0, cnt := 0 } := by
  have hreload : (outResult r s).reload = BitVec.ofNat 24 (s.cfg.unitTicks - 1) := if_neg hd
  have hcnt : (outResult r s).cnt = 0 := if_neg hd
  have hunit : (outResult r s).reload.toNat + 1 = s.cfg.unitTicks := by
    rw [hreload, reload_toNat (valid_ticks hv), Nat.sub_add_cancel (valid_ticks hv).1]
  refine ⟨hunit ▸ unitsRemaining_whole (Nat.one_le_iff_ne_zero.2 hd) hcnt, ?_⟩
  rw [State.setUcnt, hcnt]

/-- A zero dwell waits for no tick (40_engine_ops.md R80). -/
theorem waited_of_zero {r : Row} {s : State} (hd : r.dwell = 0) : waited r s = after 1 (outResult r s) := by
  simp [waited, outResult, State.setUcnt, hd]

/-- The wait of a pass of `run()`. -/
theorem tickUntilUnits_outResult {r : Row} {s : State} (hv : Valid s.cfg)
    (hq : QuietFor (after 1 s) (r.dwell * s.cfg.unitTicks)) :
    tickUntilUnits (r.dwell * s.cfg.unitTicks) (after 1 (State.setPh s.ph (outResult r s))) =
      .on (State.setPh s.ph (waited r s)) := by
  by_cases hd : r.dwell = 0
  · rw [waited_of_zero hd, hd, Nat.zero_mul]
    rfl
  · obtain ⟨hrem, hset⟩ := outResult_waits hv hd
    rw [tickUntilUnits_eq _ _ (after 1 (State.setPh s.ph (outResult r s))) (Nat.one_le_iff_ne_zero.2 hd) hrem le_rfl hq,
      waited, after_succ (r.dwell * _), hset]
    rfl

/-- The dwell of the clocked phases: the same wait, and PH is SAMPLE after it. -/
theorem runTicks_outResult {r : Row} {s : State} (hv : Valid s.cfg) (hrow : rowAt s.cfg s.cur = .ok r)
    (hq : QuietFor (after 1 s) (r.dwell * s.cfg.unitTicks)) :
    runTicks (r.dwell * s.cfg.unitTicks) (after 1 (outResult r s)) = .next (State.setPh .sample (waited r s)) := by
  by_cases hd : r.dwell = 0
  · have hph : (outResult r s).ph = .sample := if_pos hd
    rw [waited_of_zero hd, hd, Nat.zero_mul, runTicks_zero, ← hph]
    rfl
  · obtain ⟨hrem, hset⟩ := outResult_waits hv hd
    have hdwell : Dwelling (after 1 (outResult r s)) :=
      ⟨hv, rowAt_lt hrow, (outResult_ph_eq_dwell r s).2 hd, Nat.one_le_iff_ne_zero.2 hd⟩
    rw [runTicks_dwelling hdwell hrem hq, waited, after_succ (r.dwell * _), hset]
    rfl

/-- The quiet edges of a pass: OUT's, those of the wait, and the last two. -/
theorem quietFor_pass {r : Row} {s : State} (hq : QuietFor s (r.dwell * s.cfg.unitTicks + 3)) :
    rstNow s = false ∧ QuietFor (after 1 s) (r.dwell * s.cfg.unitTicks) ∧ QuietFor (waited r s) 2 :=
  ⟨quietFor_now hq, quietFor_next (quietFor_mono hq (by omega)) rfl rfl, quietFor_later hq rfl rfl⟩

theorem step_setPh_sample {u : State} (hv : Valid u.cfg) (hr : rstNow u = false) (hc : u.cur < u.cfg.nstates) :
    step (State.setPh .sample u) = .next (State.setPh .next (after 1 (latchInput (timerTick u)))) :=
  step_of_stepTo hv (.sample (s := State.setPh .sample u) hr rfl hc)

theorem step_setPh_next {u : State} {r : Row} {target : Nat} (hv : Valid u.cfg) (hr : rstNow u = false)
    (hrow : rowAt u.cfg u.cur = .ok r) (htarget : stepLookup u.cfg u.cur u.inp = .ok target) :
    step (State.setPh .next u) = .next (after 1 (nextResult target u)) :=
  step_of_stepTo hv (.next (s := State.setPh .next u) hr rfl hrow ((stepLookup_of_row hrow _).symm.trans htarget))

/-- One execution of `run()`: OUT's tick, the wait, the sample and the transition. -/
theorem exec_run_eq {s : State} {r : Row} {target : Nat} (hv : Valid s.cfg) (hrow : rowAt s.cfg s.cur = .ok r)
    (htarget : stepLookup s.cfg s.cur (sampled r s).inp = .ok target)
    (hq : QuietFor s (r.dwell * s.cfg.unitTicks + 3)) : exec .run s = .next (passResult r target s) := by
  obtain ⟨hnow, hwait, hlast⟩ := quietFor_pass hq
  have hout : onEdge (withCur iterationStart) s = .on (after 1 (State.setPh s.ph (outResult r s))) :=
    onEdge_quiet hnow ((withCur_lt _ (rowAt_lt hrow)).trans (iterationStart_eq hv hrow))
  have hsample : onEdge (fun t => .ok (latchInput (timerTick t))) (State.setPh s.ph (waited r s)) =
      .on (State.setPh s.ph (sampled r s)) :=
    onEdge_quiet (t := State.setPh s.ph (latchInput (timerTick (waited r s)))) (quietFor_now hlast) rfl
  have hend : onEdge iterationEnd (State.setPh s.ph (sampled r s)) = .on (passResult r target s) :=
    onEdge_quiet (t := nextResult target (sampled r s)) (hlast 1 (by omega))
      (iterationEnd_eq (s := State.setPh s.ph (sampled r s)) htarget)
  rw [exec_run hv, iteration, hout, Pass.andThen]
  change ((tickUntilUnits (r.dwell * s.cfg.unitTicks) _).andThen _).outcome = _
  rw [tickUntilUnits_outResult hv hwait, Pass.andThen, hsample, Pass.andThen, hend, Pass.outcome]

/-- The same pass in the clocked phases, one step per edge. -/
theorem runTicks_pass {s : State} {r : Row} {target : Nat} (hv : Valid s.cfg) (hrow : rowAt s.cfg s.cur = .ok r)
    (hp : s.ph = .out) (htarget : stepLookup s.cfg s.cur (sampled r s).inp = .ok target)
    (hq : QuietFor s (r.dwell * s.cfg.unitTicks + 3)) :
    runTicks (r.dwell * s.cfg.unitTicks + 3) s = .next (passResult r target s) := by
  obtain ⟨hnow, hwait, hlast⟩ := quietFor_pass hq
  have hout : step s = .next (after 1 (outResult r s)) := step_of_stepTo hv (.out hnow hp hrow)
  have hsample : step (State.setPh .sample (waited r s)) = .next (State.setPh .next (sampled r s)) :=
    step_setPh_sample hv (quietFor_now hlast) (rowAt_lt hrow)
  have hnext : step (State.setPh .next (sampled r s)) = .next (passResult r target s) :=
    step_setPh_next hv (hlast 1 (by omega)) hrow htarget
  rw [runTicks_succ _ hout, runTicks_add _ 2 (runTicks_outResult hv hrow hwait), runTicks_succ 1 hsample,
    runTicks_succ 0 hnext, runTicks_zero]

/-- A pass always finds its target. -/
theorem exists_target {s : State} {r : Row} (hrow : rowAt s.cfg s.cur = .ok r) :
    ∃ target, stepLookup s.cfg s.cur (sampled r s).inp = .ok target := by
  obtain ⟨target, -, -, htarget⟩ := stepLookup_total hrow (trunc_lt _ _)
  exact ⟨target, htarget⟩

/-- Settles O27: both are `passResult`. -/
theorem clockedPhasesImplementRun : Obligations.ClockedPhasesImplementRun := by
  intro s r hv hrow hp hq
  obtain ⟨target, htarget⟩ := exists_target hrow
  exact (runTicks_pass hv hrow hp htarget hq).trans (exec_run_eq hv hrow htarget hq).symm

/-- The three events of a pass, each appended at its own edge (20_memory.md R51, R52). -/
theorem passResult_history (r : Row) (target : Nat) (s : State) :
    (passResult r target s).history = s.history ++
      [.outWrite (s.tick + 1) r.po (r.so &&& s.cfg.smask),
       .sample (s.tick + r.dwell * s.cfg.unitTicks + 2)
         (sensAt s.cfg s.env (s.edges + r.dwell * s.cfg.unitTicks + 2)) (sampled r s).inp,
       .transition (s.tick + r.dwell * s.cfg.unitTicks + 3) s.cur target] := by
  rw [List.append_cons _ _ [_, _], List.append_cons _ _ [_]]
  rfl

/-- The timer right after the start of a pass: of `wait_units`, or free-running where the dwell is zero. -/
def startedTimer (r : Row) (s : State) : State :=
  if r.dwell = 0 then timerTick s else { s with reload := BitVec.ofNat 24 (s.cfg.unitTicks - 1), cnt := 0 }

theorem outResult_reload (r : Row) (s : State) : (outResult r s).reload = (startedTimer r s).reload := by
  unfold outResult startedTimer
  split_ifs <;> rfl

theorem outResult_cnt (r : Row) (s : State) : (outResult r s).cnt = (startedTimer r s).cnt := by
  unfold outResult startedTimer
  split_ifs <;> rfl

/-- The sample and the transition are two more ticks of the timer. -/
theorem passResult_cnt (r : Row) (target : Nat) (s : State) :
    (passResult r target s).cnt = (timerTick (timerTick (startedTimer r s))).cnt :=
  nextCount_congr (nextCount_congr (outResult_cnt r s) (outResult_reload r s)) (outResult_reload r s)

/-- What a pass does beyond OUT: UCNT is used up, and the sample and the transition follow. -/
theorem passResult_frame (r : Row) (target : Nat) (s : State) : passResult r target s =
    after (r.dwell * s.cfg.unitTicks + 3) { outResult r s with
      cur := target, ph := .out, inp := (sampled r s).inp, ucnt := 0
      cnt := (passResult r target s).cnt, history := (passResult r target s).history } := by
  rfl

/-- Settles O26: `passResult`, register by register. -/
theorem runPassFollowsTheLoop : Obligations.RunPassFollowsTheLoop := by
  intro s r hv hrow hq
  obtain ⟨target, htarget⟩ := exists_target hrow
  refine ⟨_, (sampled r s).inp, target, rfl, sampled_inp r s, htarget, startedTimer r s, rfl, ?_⟩
  rw [exec_run_eq hv hrow htarget hq, passResult_frame, passResult_history, passResult_cnt, ← outResult_reload]
  rfl

/-- What a pass that answers leaves in CUR and on the ports, in terms of the code it sampled. -/
theorem exec_run_next {s t : State} {r : Row} (hv : Valid s.cfg) (hrow : rowAt s.cfg s.cur = .ok r)
    (hq : QuietFor s (r.dwell * s.cfg.unitTicks + 3)) (h : exec .run s = .next t) :
    stepLookup s.cfg s.cur t.inp = .ok t.cur ∧ t.pout = r.po ∧
    t.sport = maskedWrite s.cfg.sportW s.sport r.so s.cfg.smask := by
  obtain ⟨target, htarget⟩ := exists_target hrow
  cases h.symm.trans (exec_run_eq hv hrow htarget hq)
  exact ⟨htarget, rfl, rfl⟩

theorem rowAt_unitTicks (c : Config) (u st : Nat) : rowAt { c with unitTicks := u } st = rowAt c st := rfl

theorem stepLookup_unitTicks (c : Config) (u st code : Nat) :
    stepLookup { c with unitTicks := u } st code = stepLookup c st code := rfl

/-- Settles O45: target and ports are functions of the code, and neither lookup reads UNIT_TICKS. -/
theorem passesDoNotDependOnTickCounts : Obligations.PassesDoNotDependOnTickCounts := by
  intro s s' t t' u r hv hv' hcfg hrow hcur hsport hq hq' h h' hinp
  have hunit : s'.cfg.unitTicks = u := by rw [hcfg]
  have hrow' : rowAt s'.cfg s'.cur = .ok r := by rw [hcfg, hcur, rowAt_unitTicks, hrow]
  obtain ⟨htarget, hpout, hport⟩ := exec_run_next hv hrow hq h
  obtain ⟨htarget', hpout', hport'⟩ := exec_run_next hv' hrow' (hunit ▸ hq') h'
  rw [hcfg, hcur, hinp, stepLookup_unitTicks, htarget] at htarget'
  refine ⟨(Except.ok.inj htarget').symm, hpout'.trans hpout.symm, ?_⟩
  rw [hport', hport, hcfg, hsport]

end Sys2Proof.Proofs
end

section
/-! The timing primitive (41_timing_ops.md R100 to R107). -/

namespace Sys2Proof.Proofs

open Sys2Proof.Machine Sys2Proof.Laws

/-! ### One tick -/

theorem nextCount_eq_zero_iff_cnt (s : State) : nextCount s = 0 ↔ s.cnt = 1 ∨ (s.cnt = 0 ∧ s.reload = 0) := by
  by_cases hc : s.cnt = 0
  · simp [nextCount_of_zero hc, hc]
  · rw [nextCount, if_neg hc, sub_eq_zero]
    exact (or_iff_left fun h => hc h.1).symm

theorem exec_tmrTick_quiet {s : State} (hv : Valid s.cfg) (hr : rstNow s = false) :
    exec .tmrTick s = .next (after 1 (timerTick s)) :=
  checked_edge hv hr rfl

/-- Settles O8: `expire` is a zero of the count to come, and that count is what the tick stores. -/
theorem expireIsTheZeroOfTheCount : Obligations.ExpireIsTheZeroOfTheCount := fun s =>
  ⟨rfl, (expire_iff s).trans (nextCount_eq_zero_iff_cnt s), fun hv hr =>
    ⟨after 1 (timerTick s), exec_tmrTick_quiet hv hr, expire_iff s, rfl⟩⟩

/-! ### The period -/

/-- The count recurs after whole periods alone: a tick is RELOAD up modulo RELOAD + 1, and the two are coprime. -/
theorem timerTick_iterate_recurs_iff {s : State} (h : s.cnt ≤ s.reload) (n : Nat) :
    (timerTick^[n] s).cnt = s.cnt ↔ (s.reload.toNat + 1) ∣ n := by
  have hlt : s.cnt.toNat < s.reload.toNat + 1 := Nat.lt_succ_of_le (BitVec.le_def.1 h)
  calc (timerTick^[n] s).cnt = s.cnt
      ↔ (s.cnt.toNat + n * s.reload.toNat) % (s.reload.toNat + 1) = s.cnt.toNat := by
        rw [← BitVec.toNat_inj, (timerTick_iterate_cnt s h n).2]
    _ ↔ s.cnt.toNat + n * s.reload.toNat ≡ s.cnt.toNat [MOD s.reload.toNat + 1] := by
        rw [Nat.ModEq, Nat.mod_eq_of_lt hlt]
    _ ↔ (s.reload.toNat + 1) ∣ n * s.reload.toNat := Nat.add_modEq_left_iff
    _ ↔ (s.reload.toNat + 1) ∣ n := Nat.Coprime.dvd_mul_right (by simp)

/-- The timer ticks at every edge of a step that is not the TMR_START of an OUT with a nonzero dwell. -/
theorem stepTo_timer {s t : State} (h : StepTo s t) (hr : rstNow s = false)
    (hfree : s.ph = .out → ∀ r, rowAt s.cfg s.cur = .ok r → r.dwell = 0) :
    t.reload = s.reload ∧ t.cnt = nextCount s := by
  cases h with
  | reset hr' => simp [hr] at hr'
  | out _ hp hrow => exact ⟨if_pos (hfree hp _ hrow), if_pos (hfree hp _ hrow)⟩
  | dwell => exact ⟨dwellTick_reload s, dwellTick_cnt s⟩
  | sample => exact ⟨rfl, rfl⟩
  | next => exact ⟨rfl, rfl⟩

/-- Settles O7: the count to come in its two cases, the period, and the phases. -/
theorem tmrTickCountsDownWithPeriodReloadPlusOne : Obligations.TmrTickCountsDownWithPeriodReloadPlusOne := by
  refine ⟨fun s hv hr => ?_, fun s h n => timerTick_iterate_recurs_iff h n, fun s t hr hstep hfree => ?_⟩
  · exact ⟨nextCount s, exec_tmrTick_quiet hv hr, nextCount_of_zero, nextCount_toNat_of_ne, expire_iff s⟩
  · obtain ⟨hreload, hcnt⟩ := stepTo_timer (stepTo_of_step hstep) hr hfree
    rw [hcnt]
    exact ⟨hreload, nextCount_of_zero, nextCount_toNat_of_ne⟩

/-! ### The start -/

/-- The state that TMR_START(n) leaves (41_timing_ops.md R100). -/
def timerStarted (n : Nat) (s : State) : State := { s with reload := BitVec.ofNat 24 (n - 1), cnt := 0 }

/-- A timer started for `n` ticks has period `n`. -/
theorem timerStarted_period {n : Nat} (s : State) (h : TicksInRange n) : (timerStarted n s).reload.toNat + 1 = n := by
  rw [timerStarted, reload_toNat h, Nat.sub_add_cancel h.1]

theorem remaining_timerStarted {n : Nat} (s : State) (h : TicksInRange n) : remaining (timerStarted n s) = n :=
  (if_pos rfl).trans (timerStarted_period s h)

/-- A timer started for `n` ticks expires at the `n`-th tick after its start, at every `n`-th after that, and at no other. -/
theorem expire_timerStarted_iff {n : Nat} (s : State) (h : TicksInRange n) (j : Nat) :
    expire false (timerTick^[j] (timerStarted n s)) = true ↔ n ∣ j + 1 := by
  have hrecurs := timerTick_iterate_recurs_iff (s := timerStarted n s) (Nat.zero_le _) (j + 1)
  rw [timerStarted_period s h, Function.iterate_succ_apply'] at hrecurs
  exact (expire_iff _).trans hrecurs

theorem timerTick_iterate_timerStarted {n : Nat} (s : State) (h : TicksInRange n) (m : Nat) :
    timerTick^[m * n] (timerStarted n s) = timerStarted n s := by
  have hperiods := timerTick_periods (timerStarted n s) rfl m
  rwa [timerStarted_period s h] at hperiods

/-- Settles O6: `timerStart` in and outside its range. -/
theorem tmrStartLoadsReloadAndClearsCount : Obligations.TmrStartLoadsReloadAndClearsCount := by
  intro s n hv hr
  refine ⟨fun h1 h2 => ⟨reload_toNat ⟨h1, h2⟩, checked_edge hv hr (timerStart_legal s ⟨h1, h2⟩)⟩, fun hn => ?_⟩
  have hout : ¬ TicksInRange n := by
    rintro ⟨h1, h2⟩
    omega
  exact checked_edge_fault hv hr (timerStart_illegal s hout)

/-! ### wait_ticks -/

theorem ticksInRange_of_waitTicksLegal {c : Config} {n : Nat} (h : WaitTicksLegal c n) : TicksInRange n :=
  ⟨h.1, (Nat.le_add_right _ _).trans h.2⟩

theorem waitTicksStart_legal {n : Nat} {s : State} (h : WaitTicksLegal s.cfg n) :
    waitTicksStart n s = .ok (timerStarted n s) :=
  (if_pos h).trans (timerStart_legal s (ticksInRange_of_waitTicksLegal h))

theorem waitTicksStart_illegal {n : Nat} {s : State} (h : ¬ WaitTicksLegal s.cfg n) :
    waitTicksStart n s = .error (.ticksRange n) := if_neg h

/-- A legal wait with RST = 0 throughout: the start, then `n` ticks, of which the last brings CNT back to zero. -/
theorem exec_waitTicks_quiet {s : State} {n : Nat} (hv : Valid s.cfg) (h : WaitTicksLegal s.cfg n)
    (hq : QuietFor s (n + 1)) : exec (.waitTicks n) s = .next (after (n + 1) (timerStarted n s)) := by
  have hstart : onEdge (waitTicksStart n) s = .on (after 1 (timerStarted n s)) :=
    onEdge_quiet (quietFor_now hq) (waitTicksStart_legal h)
  rw [exec_waitTicks n hv, hstart, Pass.andThen,
    tickUntilExpire_eq n n (after 1 (timerStarted n s)) (remaining_timerStarted s (ticksInRange_of_waitTicksLegal h))
      le_rfl (quietFor_next hq rfl rfl),
    after_succ n]
  rfl

/-- Settles O9: of the first `n` ticks after the start only the last is a whole period on. -/
theorem waitTicksLastsExactlyN : Obligations.WaitTicksLastsExactlyN := by
  intro s n hv h1 h2 hq
  have hlegal : WaitTicksLegal s.cfg n := ⟨h1, h2⟩
  refine ⟨exec_waitTicks_quiet hv hlegal hq, fun j hj => ?_⟩
  have hexpire := expire_timerStarted_iff s (ticksInRange_of_waitTicksLegal hlegal) j
  exact hexpire.trans ⟨fun hdvd => le_antisymm hj (Nat.le_of_dvd j.succ_pos hdvd), fun hlast => hlast ▸ dvd_rfl⟩

/-- Settles O10: the start refuses it. -/
theorem waitTicksFaultsOutsideItsDomain : Obligations.WaitTicksFaultsOutsideItsDomain := by
  intro s n hv hr hn
  have hout : ¬ WaitTicksLegal s.cfg n := by
    rintro ⟨h1, h2⟩
    omega
  rw [exec_waitTicks n hv, onEdge_fault hr (waitTicksStart_illegal hout)]
  rfl

/-! ### wait_units -/

/-- A wait of no unit is a tick of the timer. -/
theorem exec_waitUnits_zero_quiet {s : State} (hv : Valid s.cfg) (hr : rstNow s = false) :
    exec (.waitUnits 0) s = .next (after 1 (timerTick s)) := calc
  exec (.waitUnits 0) s = exec .tmrTick s := (exec_waitUnits_zero hv).trans (exec_tmrTick hv).symm
  _ = .next (after 1 (timerTick s)) := exec_tmrTick_quiet hv hr

/-- A wait of at least one unit with RST = 0 throughout: the start, then the ticks of its units. -/
theorem exec_waitUnits_quiet {s : State} {n : Nat} (hv : Valid s.cfg) (h1 : 1 ≤ n) (hn : n < 2 ^ s.cfg.dwellW)
    (hq : QuietFor s (n * s.cfg.unitTicks + 1)) : exec (.waitUnits n) s =
      .next (after (n * s.cfg.unitTicks + 1) (State.setUcnt 0 (timerStarted s.cfg.unitTicks s))) := by
  have hU := valid_ticks hv
  have hne : n ≠ 0 := Nat.one_le_iff_ne_zero.1 h1
  have hstart : onEdge (startUnits n) s = .on (after 1 (State.setUcnt n (timerStarted s.cfg.unitTicks s))) :=
    onEdge_quiet (quietFor_now hq) (startUnits_pos s hne hU)
  rw [exec_waitUnits hv hne hn, hstart, Pass.andThen,
    tickUntilUnits_eq (n * s.cfg.unitTicks) _ (after 1 (State.setUcnt n (timerStarted s.cfg.unitTicks s))) h1 (unitsRemaining_started s h1 hU)
      le_rfl (quietFor_next hq rfl rfl),
    after_succ (n * _)]
  rfl

/-- Settles O11: the wait's end in its two cases, and the timer of one unit. -/
theorem waitUnitsLastsExactlyNUnits : Obligations.WaitUnitsLastsExactlyNUnits := by
  intro s n hv hn
  refine ⟨?_, fun h1 hq => exec_waitUnits_quiet hv h1 hn hq, expire_timerStarted_iff s (valid_ticks hv)⟩
  rintro rfl hr
  exact exec_waitUnits_zero_quiet hv hr

/-- Whole periods of a started timer pass and leave it as it was. -/
theorem tickFor_timerStarted {s : State} {n : Nat} (h : TicksInRange n) (m : Nat) (hq : QuietFor s (m * n)) :
    tickFor (m * n) (timerStarted n s) = .on (after (m * n) (timerStarted n s)) := by
  rw [tickFor_eq (m * n) (timerStarted n s) hq, timerTick_iterate_timerStarted s h]

/-- Settles O12: `n * UNIT_TICKS` ticks are whole periods of the timer, so they bring CNT back to zero. -/
theorem waitUnitsBeyondTheWidthOfUcntLastsAsLong : Obligations.WaitUnitsBeyondTheWidthOfUcntLastsAsLong := by
  intro s n hv hn hq
  have hU := valid_ticks hv
  have hstart : onEdge startLongWait s = .on (timerStarted s.cfg.unitTicks (after 1 (drawUnits s))) :=
    onEdge_quiet (t := timerStarted s.cfg.unitTicks (drawUnits s)) (quietFor_now hq) (timerStart_legal _ hU)
  have hticks := tickFor_timerStarted (s := after 1 (drawUnits s)) hU n (quietFor_next hq rfl rfl)
  rw [exec_waitUnits_long hv hn, hstart, Pass.andThen]
  change ((tickFor (n * s.cfg.unitTicks) _).andThen _).outcome = _
  rw [hticks, after_succ (n * _)]
  rfl

end Sys2Proof.Proofs
end

section
/-! Which faults a run can meet (60_exceptions.md R122, R123): none from a state in range; and where IN is no code, or both
operands of `step` are out of range, the one named. -/

namespace Sys2Proof.Proofs

open Sys2Proof.Machine Sys2Proof.Laws

/-! ### No fault from a state in range -/

/-- From registers in range every edge has a way to go: CUR names a row, and the row an entry for IN. -/
theorem exists_stepTo {s : State} (hv : Valid s.cfg) (h : InRange s) : ∃ t, StepTo s t := by
  obtain ⟨r, hrow⟩ := valid_row hv h.cur
  cases hr : rstNow s with
  | true => exact ⟨_, .reset hr⟩
  | false =>
    cases hp : s.ph with
    | out => exact ⟨_, .out hr hp hrow⟩
    | dwell => exact ⟨_, .dwell hr hp h.cur⟩
    | sample => exact ⟨_, .sample hr hp h.cur⟩
    | next =>
      obtain ⟨target, -, -, htarget⟩ := targetOf_wf (st := s.cur) (rowAt_wf hrow) h.inp
      exact ⟨_, .next hr hp hrow htarget⟩

/-- A step from registers in range answers a state of the same kind. -/
theorem exists_step_inRange {s : State} (hv : Valid s.cfg) (h : InRange s) :
    ∃ t, step s = .next t ∧ t.cfg = s.cfg ∧ InRange t := by
  obtain ⟨t, ht⟩ := exists_stepTo hv h
  have hstep := step_of_stepTo hv ht
  exact ⟨t, hstep, stepTo_cfg ht, everyStepKeepsRegistersInRange s t h hstep⟩

/-- What suffices for a step and is kept by it suffices for a run of any length. -/
theorem exists_runTicks {P : State → Prop} (hstep : ∀ s, P s → ∃ t, step s = .next t ∧ P t) :
    ∀ (n : Nat) {s : State}, P s → ∃ t, runTicks n s = .next t
  | 0, s, _ => ⟨s, runTicks_zero s⟩
  | n + 1, s, hs => by
    obtain ⟨t, hst, ht⟩ := hstep s hs
    rw [runTicks_succ n hst]
    exact exists_runTicks hstep n ht

/-- Settles O41: every step goes on from registers in range and keeps them so, and the launch state has them in range. -/
theorem everyTickHasItsStep : Obligations.EveryTickHasItsStep := by
  refine ⟨fun _ hv h => exists_step_inRange hv h, fun c pout sport env n hv hrom hpout hsport => ?_⟩
  refine exists_runTicks (P := fun s => Valid s.cfg ∧ InRange s) (fun s ⟨hv, h⟩ => ?_) n
    ⟨hv, inRange_launch env hv hrom hpout hsport⟩
  obtain ⟨t, hst, hcfg, ht⟩ := exists_step_inRange hv h
  exact ⟨t, hst, hcfg ▸ hv, ht⟩

/-! ### Faults that no run reaches -/

theorem targetOf_code_ge {c : Config} {code : Nat} (st : Nat) (r : Row) (h : 2 ^ c.k ≤ code) :
    targetOf c st r code = .error (.inputCodeRange st code) := if_neg (Nat.not_lt.2 h)

/-- NEXT asks the row for its entry first: where IN is no code there is none. -/
theorem nextTick_inp_ge {s : State} (r : Row) (h : 2 ^ s.cfg.k ≤ s.inp) :
    nextTick r s = .error (.inputCodeRange s.cur s.inp) := by
  rw [nextTick, targetOf_code_ge s.cur r h]

/-- Settles O18: NEXT, by name or as the phase of a row word, stops where IN is no code. -/
theorem phasesStopByNameWhereNoRunGoes : Obligations.PhasesStopByNameWhereNoRunGoes := by
  intro s hv hc hr hin
  refine ⟨?_, fun r hwf hp => ?_⟩
  · obtain ⟨r, hrow⟩ := valid_row hv hc
    exact checked_edge_fault hv hr ((withRow_row _ hrow).trans (nextTick_inp_ge r hin))
  · have hphase : phaseTick r s = .error (.inputCodeRange s.cur s.inp) := by
      rw [phaseTick, hp]
      exact nextTick_inp_ge r hin
    exact checked_edge_fault hv hr ((withCur_lt _ hc).trans ((rowTick_wf hwf).trans hphase))

/-- Settles O21: the lookup checks the code before it asks for the row. -/
theorem stepWithBothOperandsOutFaultsByTheLowerNumber : Obligations.StepWithBothOperandsOutFaultsByTheLowerNumber := by
  intro s st code hv _ hcode
  refine ⟨?_, Nat.lt_succ_self 2⟩
  rw [exec_step st code hv, stepLookup_code_ge st hcode, answer_error]

end Sys2Proof.Proofs
end

section
/-! Reset (70_reset_and_hazards.md R140 to R142): at any edge it wins, and it ends whatever was going on. -/

namespace Sys2Proof.Proofs

open Sys2Proof.Machine Sys2Proof.Laws

/-! ### At one edge -/

/-- The operations that have an edge: all but those that only read. -/
def HasEdge (i : Instr) : Prop :=
  (∃ r, i = .state r) ∨ i = .out ∨ i = .dwell ∨ i = .sample ∨ i = .next ∨ (∃ n, i = .tmrStart n) ∨ i = .tmrTick ∨
    i = .run ∨ (∃ n, i = .waitTicks n) ∨ (∃ n, i = .waitUnits n) ∨ (∃ port bits mask, i = .writeOutputs port bits mask)

/-- A stretch whose first edge has RST = 1 goes no further. -/
theorem onEdge_andThen_reset (op : State → Except Fault State) (rest : State → Pass) {s : State} (hr : rstNow s = true) :
    ((onEdge op s).andThen rest).outcome = .next s.enterReset := by
  rw [onEdge_reset op hr]
  rfl

theorem exec_run_reset {s : State} (hv : Valid s.cfg) (hr : rstNow s = true) : exec .run s = .next s.enterReset :=
  (exec_run hv).trans (onEdge_andThen_reset _ _ hr)

theorem exec_waitTicks_reset (n : Nat) {s : State} (hv : Valid s.cfg) (hr : rstNow s = true) :
    exec (.waitTicks n) s = .next s.enterReset :=
  (exec_waitTicks n hv).trans (onEdge_andThen_reset _ _ hr)

theorem exec_waitUnits_reset (n : Nat) {s : State} (hv : Valid s.cfg) (hr : rstNow s = true) :
    exec (.waitUnits n) s = .next s.enterReset := by
  by_cases h0 : n = 0
  · rw [h0, exec_waitUnits_zero hv, onEdge_reset _ hr, Pass.outcome]
  · by_cases hn : n < 2 ^ s.cfg.dwellW
    · rw [exec_waitUnits hv h0 hn, onEdge_andThen_reset _ _ hr]
    · rw [exec_waitUnits_long hv (Nat.le_of_not_lt hn), onEdge_andThen_reset _ _ hr]

/-- Reset wins whichever operation is due. -/
theorem exec_reset {i : Instr} (hi : HasEdge i) {s : State} (hv : Valid s.cfg) (hr : rstNow s = true) :
    exec i s = .next s.enterReset := by
  obtain ⟨r, rfl⟩ | rfl | rfl | rfl | rfl | ⟨n, rfl⟩ | rfl | rfl | ⟨n, rfl⟩ | ⟨n, rfl⟩ | ⟨port, bits, mask, rfl⟩ := hi
  any_goals exact checked_edge_reset _ hv hr
  · exact exec_run_reset hv hr
  · exact exec_waitTicks_reset n hv hr
  · exact exec_waitUnits_reset n hv hr

/-- Settles O35: every operation of an edge gives reset priority; the others are lookups that see no edge. -/
theorem resetWinsAtAnyEdge : Obligations.ResetWinsAtAnyEdge := by
  intro s hv hr
  refine ⟨⟨_, rfl, step_reset hv hr, fun i hi => exec_reset hi hv hr⟩, exec_readInputs hv, fun st code => ?_,
    fun st => ?_⟩
  · rw [exec_step st code hv]
    exact ⟨fun target h => by rw [h, answer_ok], fun f h => by rw [h, answer_error]⟩
  · rw [exec_outputsFor st hv]
    exact ⟨fun po so h => by rw [h, answer_ok], fun f h => by rw [h, answer_error]⟩

/-! ### In the middle of an operation -/

/-- RST is 0 at each of the next `k` edges and 1 at the one after them. -/
def FirstReset (s : State) (k : Nat) : Prop := QuietFor s k ∧ rstAt s.env (s.edges + 1 + k) = true

theorem FirstReset.later {s t : State} {j k : Nat} (h : FirstReset s (j + k)) (henv : t.env = s.env)
    (hedges : t.edges = s.edges + j) : FirstReset t k := by
  obtain ⟨hq, hr⟩ := h
  refine ⟨quietFor_later hq henv hedges, ?_⟩
  rwa [henv, hedges, show s.edges + j + 1 + k = s.edges + 1 + (j + k) by omega]

theorem FirstReset.next {s t : State} {k : Nat} (h : FirstReset s (k + 1)) (henv : t.env = s.env)
    (hedges : t.edges = s.edges + 1) : FirstReset t k :=
  FirstReset.later (Nat.add_comm k 1 ▸ h) henv hedges

/-- The state after a reset at the edge after the next `k`, where those change nothing that outlasts a reset. -/
def resetAfter (k : Nat) (s : State) : State := { s.enterReset with edges := s.edges + 1 + k }

theorem resetAfter_after {j k m : Nat} (s : State) (h : j + k = m) : resetAfter k (after j s) = resetAfter m s := by
  have hedges : s.edges + j + 1 + k = s.edges + 1 + m := by omega
  rw [resetAfter, after_edges, hedges]
  rfl

/-- An operation with a start and a rest, where the reset comes after the start. -/
theorem onEdge_andThen_firstReset {op : State → Except Fault State} {rest : State → Pass} {s u : State} {k : Nat}
    (h : FirstReset s (k + 1)) (hop : op s = .ok u) (hrest : rest (after 1 u) = .reset (resetAfter k (after 1 u))) :
    ((onEdge op s).andThen rest).outcome = .next (resetAfter (k + 1) u) := by
  rw [onEdge_quiet (quietFor_now h.1) hop, Pass.andThen, advance_eq_after, hrest, resetAfter_after u (Nat.add_comm 1 k)]
  rfl

theorem exec_waitTicks_firstReset {s : State} {n k : Nat} (hv : Valid s.cfg) (hn : WaitTicksLegal s.cfg n) (hk : k < n + 1)
    (h : FirstReset s k) : exec (.waitTicks n) s = .next (resetAfter k s) := by
  cases k with
  | zero => exact exec_waitTicks_reset n hv h.2
  | succ k =>
    have hrem : remaining (after 1 (timerStarted n s)) = n := remaining_timerStarted s (ticksInRange_of_waitTicksLegal hn)
    obtain ⟨hq, hr⟩ : FirstReset (after 1 (timerStarted n s)) k := h.next rfl rfl
    rw [exec_waitTicks n hv]
    exact onEdge_andThen_firstReset (u := timerStarted n s) h (waitTicksStart_legal hn)
      (tickUntilExpire_reset k n _ (by omega) (by omega) hq hr)

/-- A wait that UCNT can count, abandoned after its start. -/
theorem exec_waitUnits_short_firstReset {s : State} {n k : Nat} (hv : Valid s.cfg) (hn : n < 2 ^ s.cfg.dwellW)
    (hk : k < n * s.cfg.unitTicks) (h : FirstReset s (k + 1)) :
    exec (.waitUnits n) s = .next (resetAfter (k + 1) s) := by
  have hU := valid_ticks hv
  have h0 : n ≠ 0 := by
    rintro rfl
    omega
  have hpos : 1 ≤ n := Nat.one_le_iff_ne_zero.2 h0
  have hrem := unitsRemaining_started s hpos hU
  obtain ⟨hq, hr⟩ : FirstReset (after 1 (State.setUcnt n (timerStarted s.cfg.unitTicks s))) k := h.next rfl rfl
  rw [exec_waitUnits hv h0 hn]
  exact onEdge_andThen_firstReset (u := State.setUcnt n (timerStarted s.cfg.unitTicks s)) h (startUnits_pos s h0 hU)
    (tickUntilUnits_reset k _ _ hpos (hk.trans_eq hrem.symm) hk hq hr)

/-- A longer wait, abandoned after its start, has drawn what UCNT held (log 10). -/
theorem exec_waitUnits_long_firstReset {s : State} {n k : Nat} (hv : Valid s.cfg) (hn : 2 ^ s.cfg.dwellW ≤ n)
    (hk : k < n * s.cfg.unitTicks) (h : FirstReset s (k + 1)) :
    exec (.waitUnits n) s = .next (resetAfter (k + 1) { s with draws := s.draws + 1 }) := by
  obtain ⟨hq, hr⟩ : FirstReset (after 1 (timerStarted s.cfg.unitTicks (drawUnits s))) k := h.next rfl rfl
  rw [exec_waitUnits_long hv hn]
  exact onEdge_andThen_firstReset (u := timerStarted s.cfg.unitTicks (drawUnits s)) h
    (timerStart_legal _ (valid_ticks hv)) (congrArg (Pass.andThen · _) (tickFor_reset k _ _ hk hq hr))

theorem exec_waitUnits_firstReset {s : State} {n k : Nat} (hv : Valid s.cfg) (hk : k < n * s.cfg.unitTicks + 1)
    (h : FirstReset s k) : exec (.waitUnits n) s =
      .next (resetAfter k { s with draws := if n < 2 ^ s.cfg.dwellW ∨ k = 0 then s.draws else s.draws + 1 }) := by
  cases k with
  | zero =>
    rw [if_pos (.inr rfl)]
    exact exec_waitUnits_reset n hv h.2
  | succ k =>
    by_cases hn : n < 2 ^ s.cfg.dwellW
    · rw [if_pos (.inl hn)]
      exact exec_waitUnits_short_firstReset hv hn (by omega) h
    · rw [if_neg (by simp [hn])]
      exact exec_waitUnits_long_firstReset hv (Nat.le_of_not_lt hn) (by omega) h

/-! ### In the middle of a pass -/

/-- The edge of a pass at which it samples, as `iteration` writes it. -/
def sampleEdge (s : State) : Pass := onEdge (fun t => .ok (latchInput (timerTick t))) s

/-- A pass from the end of its first edge. -/
theorem iteration_started {s : State} {r : Row} (hv : Valid s.cfg) (hrow : rowAt s.cfg s.cur = .ok r)
    (hr : rstNow s = false) : iteration s =
      (tickUntilUnits (r.dwell * s.cfg.unitTicks) (after 1 (State.setPh s.ph (outResult r s)))).andThen
        fun t => (sampleEdge t).andThen (onEdge iterationEnd) := by
  rw [iteration, onEdge_quiet hr ((withCur_lt _ (rowAt_lt hrow)).trans (iterationStart_eq hv hrow))]
  rfl

/-- A pass from the end of its wait. -/
theorem iteration_waited {s : State} {r : Row} (hv : Valid s.cfg) (hrow : rowAt s.cfg s.cur = .ok r)
    (hq : QuietFor s (r.dwell * s.cfg.unitTicks + 1)) :
    iteration s = (sampleEdge (State.setPh s.ph (waited r s))).andThen (onEdge iterationEnd) := by
  rw [iteration_started hv hrow (quietFor_now hq), tickUntilUnits_outResult hv (quietFor_next hq rfl rfl)]
  rfl

/-- A pass abandoned after its first edge and before its sample: the outputs are driven. -/
theorem iteration_firstReset {s : State} {r : Row} {k : Nat} (hv : Valid s.cfg) (hrow : rowAt s.cfg s.cur = .ok r)
    (hk : k < r.dwell * s.cfg.unitTicks + 1) (h : FirstReset s (k + 1)) :
    iteration s = .reset (resetAfter (k + 1) (outResult r s)) := by
  have hq := h.1
  obtain hwait | rfl := Nat.lt_succ_iff_lt_or_eq.1 hk
  · have hd : r.dwell ≠ 0 := by
      intro hd
      simp [hd] at hwait
    obtain ⟨hrem, -⟩ := outResult_waits hv hd
    obtain ⟨hq', hr⟩ : FirstReset (after 1 (State.setPh s.ph (outResult r s))) k := h.next rfl rfl
    have hreset := tickUntilUnits_reset k _ (after 1 (State.setPh s.ph (outResult r s)))
      (Nat.one_le_iff_ne_zero.2 hd) (hwait.trans_eq hrem.symm) hwait hq' hr
    rw [iteration_started hv hrow (quietFor_now hq), hreset, Pass.andThen]
    exact congrArg Pass.reset (resetAfter_after (State.setPh s.ph (outResult r s)) (Nat.add_comm 1 k))
  · have hr : rstNow (State.setPh s.ph (waited r s)) = true :=
      (FirstReset.later (t := State.setPh s.ph (waited r s)) (k := 0) h rfl rfl).2
    rw [iteration_waited hv hrow hq, sampleEdge, onEdge_reset _ hr]
    exact congrArg Pass.reset (resetAfter_after (State.setPh s.ph (State.setUcnt 0 (outResult r s))) (Nat.add_zero _))

/-- A pass abandoned at its last edge: the sample is taken too, the transition is not. -/
theorem iteration_firstReset_sampled {s : State} {r : Row} (hv : Valid s.cfg) (hrow : rowAt s.cfg s.cur = .ok r)
    (h : FirstReset s (r.dwell * s.cfg.unitTicks + 2)) : iteration s = .reset (sampled r s).enterReset := by
  have hq : QuietFor s (r.dwell * s.cfg.unitTicks + 1 + 1) := h.1
  have hsample : sampleEdge (State.setPh s.ph (waited r s)) = .on (State.setPh s.ph (sampled r s)) :=
    onEdge_quiet (t := State.setPh s.ph (latchInput (timerTick (waited r s))))
      (quietFor_now (quietFor_later (t := waited r s) hq rfl rfl)) rfl
  have hr : rstNow (State.setPh s.ph (sampled r s)) = true :=
    (FirstReset.later (t := State.setPh s.ph (sampled r s)) (k := 0) h rfl rfl).2
  rw [iteration_waited hv hrow (quietFor_mono hq (Nat.le_succ _)), hsample, Pass.andThen, onEdge_reset _ hr]
  rfl

/-- What the first `k` edges of a pass do that outlasts a reset: the first drives the outputs, the last but one samples. -/
def passEffects (r : Row) (k : Nat) (s : State) : State :=
  { s with
    pout := if k = 0 then s.pout else r.po
    sport := if k = 0 then s.sport else maskedWrite s.cfg.sportW s.sport r.so s.cfg.smask
    history := s.history ++
      (if k = 0 then [] else [.outWrite (s.tick + 1) r.po (r.so &&& s.cfg.smask)]) ++
      (if k = r.dwell * s.cfg.unitTicks + 2 then
        [.sample (s.tick + r.dwell * s.cfg.unitTicks + 2)
          (sensAt s.cfg s.env (s.edges + r.dwell * s.cfg.unitTicks + 2)) (sampled r s).inp] else []) }

theorem resetAfter_passEffects_zero (r : Row) (s : State) : resetAfter 0 (passEffects r 0 s) = s.enterReset := by
  simp [resetAfter, passEffects, State.enterReset]

theorem resetAfter_passEffects_driven {r : Row} {k : Nat} {s : State} (hk : k ≠ r.dwell * s.cfg.unitTicks + 1) :
    resetAfter (k + 1) (passEffects r (k + 1) s) = resetAfter (k + 1) (outResult r s) := by
  simp [resetAfter, passEffects, hk, State.enterReset, outResult]

theorem resetAfter_passEffects_sampled (r : Row) (s : State) :
    resetAfter (r.dwell * s.cfg.unitTicks + 2) (passEffects r (r.dwell * s.cfg.unitTicks + 2) s) =
      (sampled r s).enterReset := by
  have heffects : passEffects r (r.dwell * s.cfg.unitTicks + 2) s =
      { s with pout := (sampled r s).pout, sport := (sampled r s).sport, history := (sampled r s).history } := by
    simp only [passEffects, if_neg (Nat.succ_ne_zero _), if_true]
    rfl
  rw [heffects, ← resetAfter_after (k := 0) _ (Nat.add_zero _)]
  rfl

/-- The pass of R142, abandoned at each of its edges. -/
theorem exec_run_firstReset {s : State} {r : Row} {k : Nat} (hv : Valid s.cfg) (hrow : rowAt s.cfg s.cur = .ok r)
    (hk : k < r.dwell * s.cfg.unitTicks + 3) (h : FirstReset s k) :
    exec .run s = .next (resetAfter k (passEffects r k s)) := by
  cases k with
  | zero => rw [exec_run_reset hv h.2, resetAfter_passEffects_zero]
  | succ k =>
    rw [exec_run hv]
    by_cases hlast : k = r.dwell * s.cfg.unitTicks + 1
    · subst hlast
      rw [iteration_firstReset_sampled hv hrow h, resetAfter_passEffects_sampled, Pass.outcome]
    · rw [iteration_firstReset hv hrow (by omega) h, resetAfter_passEffects_driven hlast, Pass.outcome]

/-- Settles O36: the edges before the reset are those of the operation itself, and the reset takes back all but the ports,
the history and the draws. -/
theorem resetAbandonsAWait : Obligations.ResetAbandonsAWait := by
  intro s k hv hq hr
  have h : FirstReset s k := ⟨hq, hr⟩
  exact ⟨fun n h1 hn hk => exec_waitTicks_firstReset hv ⟨h1, hn⟩ hk h,
    fun n hk => exec_waitUnits_firstReset hv hk h,
    fun r hrow hk => ⟨_, rfl, exec_run_firstReset hv hrow hk h⟩⟩

end Sys2Proof.Proofs
end

section
/-! The length of an iteration and what happens within it (70_reset_and_hazards.md R149 to R152, R160). -/

namespace Sys2Proof.Proofs

open Sys2Proof.Machine Sys2Proof.Laws

/-! ### From the sample to the next OUT -/

/-- The state one SAMPLE and one NEXT on, where the table answers the sample with `target`. -/
def answered (target : Nat) (s : State) : State := after 1 (nextResult target (after 1 (sampleTick s)))

section
variable (target : Nat) (s : State)

@[simp] theorem answered_cfg : (answered target s).cfg = s.cfg := by simp [answered, nextResult, sampleTick]
@[simp] theorem answered_cur : (answered target s).cur = target := by simp [answered, nextResult]
@[simp] theorem answered_ph : (answered target s).ph = .out := by simp [answered, nextResult]
@[simp] theorem answered_pout : (answered target s).pout = s.pout := by simp [answered, nextResult, sampleTick]
@[simp] theorem answered_sport : (answered target s).sport = s.sport := by simp [answered, nextResult, sampleTick]
@[simp] theorem answered_env : (answered target s).env = s.env := by simp [answered, nextResult, sampleTick]
@[simp] theorem answered_edges : (answered target s).edges = s.edges + 2 := by simp [answered, nextResult, sampleTick]

end

/-- A step of NEXT, in terms of the lookup. -/
theorem step_next {s : State} {target : Nat} (hv : Valid s.cfg) (hc : s.cur < s.cfg.nstates) (hp : s.ph = .next)
    (hr : rstNow s = false) (htarget : stepLookup s.cfg s.cur s.inp = .ok target) :
    step s = .next (after 1 (nextResult target s)) := by
  obtain ⟨r, hrow⟩ := valid_row hv hc
  exact step_of_stepTo hv (.next hr hp hrow ((stepLookup_of_row hrow _).symm.trans htarget))

/-- From SAMPLE: one step latches the code, the next takes the transition that the table names for it. -/
theorem runTicks_sample {s : State} {target : Nat} (hv : Valid s.cfg) (hc : s.cur < s.cfg.nstates) (hp : s.ph = .sample)
    (hq : QuietFor s 2) (htarget : stepLookup s.cfg s.cur (sampleTick s).inp = .ok target) :
    runTicks 1 s = .next (after 1 (sampleTick s)) ∧ runTicks 2 s = .next (answered target s) := by
  have hsample : step s = .next (after 1 (sampleTick s)) := step_of_stepTo hv (.sample (quietFor_now hq) hp hc)
  have hnext : step (after 1 (sampleTick s)) = .next (answered target s) :=
    step_next (s := after 1 (sampleTick s)) hv hc rfl (hq 1 (by omega)) htarget
  rw [runTicks_succ 0 hsample, runTicks_succ 1 hsample, runTicks_succ 0 hnext]
  exact ⟨rfl, rfl⟩

/-- Settles O44: SAMPLE and NEXT write no port, and the OUT after them drives the row of the new state. -/
theorem outputsAnswerTwoTicksAfterTheSample : Obligations.OutputsAnswerTwoTicksAfterTheSample := by
  intro s target r hv h hp hq htarget hrow
  obtain ⟨hone, htwo⟩ := runTicks_sample hv h.cur hp (quietFor_mono hq (by omega)) htarget
  have hv' : Valid (answered target s).cfg := by rwa [answered_cfg]
  have hquiet : QuietFor (answered target s) 1 := quietFor_later hq (answered_env target s) (answered_edges target s)
  have hrow' : rowAt (answered target s).cfg (answered target s).cur = .ok r := by rwa [answered_cfg, answered_cur]
  have hout := step_of_stepTo hv' (.out (quietFor_now hquiet) (answered_ph target s) hrow')
  refine ⟨⟨_, _, hone, htwo, ?_⟩, after 1 (outResult r (answered target s)), ?_, ?_, outResult_shows r hv'⟩
  · simp [sampleTick]
  · rw [runTicks_add 2 1 htwo, runTicks_succ 0 hout, runTicks_zero]
  · simp [outResult]

/-! ### The end of an iteration -/

/-- `k` steps on the machine is at OUT, in a state that the table names for some code. -/
def ReachesOut (k : Nat) (s : State) : Prop :=
  ∃ t, runTicks k s = .next t ∧ t.ph = .out ∧ ∃ code, code < 2 ^ s.cfg.k ∧ stepLookup s.cfg s.cur code = .ok t.cur

theorem exists_stepLookup {c : Config} {st code : Nat} (hv : Valid c) (hst : st < c.nstates) (hcode : code < 2 ^ c.k) :
    ∃ target, stepLookup c st code = .ok target := by
  obtain ⟨r, hrow⟩ := valid_row hv hst
  obtain ⟨target, -, -, htarget⟩ := stepLookup_total hrow hcode
  exact ⟨target, htarget⟩

theorem reachesOut_next {s : State} (hv : Valid s.cfg) (h : InRange s) (hp : s.ph = .next) (hq : QuietFor s 1) :
    ReachesOut 1 s := by
  obtain ⟨target, htarget⟩ := exists_stepLookup hv h.cur h.inp
  exact ⟨_, runTicks_succ 0 (step_next hv h.cur hp (quietFor_now hq) htarget), rfl, s.inp, h.inp, htarget⟩

theorem reachesOut_sample {s : State} (hv : Valid s.cfg) (hc : s.cur < s.cfg.nstates) (hp : s.ph = .sample)
    (hq : QuietFor s 2) : ReachesOut 2 s := by
  have hcode : (sampleTick s).inp < 2 ^ s.cfg.k := trunc_lt _ _
  obtain ⟨target, htarget⟩ := exists_stepLookup hv hc hcode
  exact ⟨_, (runTicks_sample hv hc hp hq htarget).2, rfl, _, hcode, htarget⟩

/-- In DWELL the ticks that remain of it come first. -/
theorem reachesOut_dwell {s : State} (h : Dwelling s) (hq : QuietFor s (unitsRemaining s + 2)) :
    ReachesOut (unitsRemaining s + 2) s := by
  have hdwell := runTicks_dwelling h rfl (quietFor_mono hq (Nat.le_add_right _ 2))
  obtain ⟨t, hrun, hout⟩ := reachesOut_sample
    (s := after (unitsRemaining s) { s with ucnt := 0, cnt := 0, ph := .sample }) h.valid h.cur rfl (quietFor_later hq rfl rfl)
  exact ⟨t, (runTicks_add _ 2 hdwell).trans hrun, hout⟩

theorem reachesOut_out {s : State} {r : Row} (hv : Valid s.cfg) (hrow : rowAt s.cfg s.cur = .ok r) (hp : s.ph = .out)
    (hq : QuietFor s (r.dwell * s.cfg.unitTicks + 3)) : ReachesOut (r.dwell * s.cfg.unitTicks + 3) s := by
  obtain ⟨target, htarget⟩ := exists_target hrow
  exact ⟨_, runTicks_pass hv hrow hp htarget hq, rfl, _, trunc_lt _ _, htarget⟩

/-- No more of a dwell remains than the whole of it. -/
theorem unitsRemaining_le {s : State} {r : Row} (h : Inv s) (hp : s.ph = .dwell) (hrow : rowAt s.cfg s.cur = .ok r) :
    unitsRemaining s ≤ r.dwell * s.cfg.unitTicks := by
  obtain ⟨hu, hle, hreload⟩ := h.dwelling hp r hrow
  have hunit : s.reload.toNat + 1 = s.cfg.unitTicks := by
    rw [hreload, Nat.sub_add_cancel (valid_ticks h.valid).1]
  calc unitsRemaining s
      ≤ (s.ucnt - 1) * s.cfg.unitTicks + s.cfg.unitTicks := by
        rw [unitsRemaining, hunit]
        exact Nat.add_le_add_left (hunit ▸ remaining_le h.count) _
    _ = s.ucnt * s.cfg.unitTicks := by rw [← Nat.succ_mul, Nat.succ_eq_add_one, Nat.sub_add_cancel hu]
    _ ≤ r.dwell * s.cfg.unitTicks := Nat.mul_le_mul_right _ hle

/-- Settles O42: what remains of the iteration, phase by phase. -/
theorem everyIterationEnds : Obligations.EveryIterationEnds := by
  intro s r h hrow hq
  have hreaches : ∃ k, 1 ≤ k ∧ k ≤ r.dwell * s.cfg.unitTicks + 3 ∧ ReachesOut k s := by
    cases hp : s.ph with
    | out => exact ⟨_, by omega, le_rfl, reachesOut_out h.valid hrow hp hq⟩
    | dwell =>
      have hle := unitsRemaining_le h hp hrow
      have hdwell : Dwelling s := ⟨h.valid, h.range.cur, hp, (h.dwelling hp r hrow).1⟩
      exact ⟨_, by omega, by omega, reachesOut_dwell hdwell (quietFor_mono hq (by omega))⟩
    | sample => exact ⟨2, by omega, by omega, reachesOut_sample h.valid h.range.cur hp (quietFor_mono hq (by omega))⟩
    | next => exact ⟨1, le_rfl, by omega, reachesOut_next h.valid h.range hp (quietFor_mono hq (by omega))⟩
  obtain ⟨k, hpos, hle, t, hrun, hout⟩ := hreaches
  exact ⟨k, t, hpos, hle, hrun, hout⟩

/-! ### From one sample to the next -/

/-- From OUT the machine samples at the tick after the dwell. -/
theorem runTicks_sampled {s : State} {r : Row} (hv : Valid s.cfg) (hrow : rowAt s.cfg s.cur = .ok r) (hp : s.ph = .out)
    (hq : QuietFor s (r.dwell * s.cfg.unitTicks + 2)) :
    runTicks (r.dwell * s.cfg.unitTicks + 2) s = .next (State.setPh .next (sampled r s)) := by
  have hout : step s = .next (after 1 (outResult r s)) := step_of_stepTo hv (.out (quietFor_now hq) hp hrow)
  have hwait := runTicks_outResult hv hrow (quietFor_next (t := after 1 s) (quietFor_mono hq (Nat.le_succ _)) rfl rfl)
  have hsample : step (State.setPh .sample (waited r s)) = .next (State.setPh .next (sampled r s)) :=
    step_setPh_sample hv (quietFor_now (quietFor_later (t := waited r s) (n := 1) hq rfl rfl)) (rowAt_lt hrow)
  rw [runTicks_succ _ hout, runTicks_add _ 1 hwait, runTicks_succ 0 hsample, runTicks_zero]

/-- After OUT and until its dwell is over the machine has not sampled. -/
theorem runTicks_outResult_before {s : State} {r : Row} {j : Nat} (hv : Valid s.cfg) (hrow : rowAt s.cfg s.cur = .ok r)
    (hj : j ≤ r.dwell * s.cfg.unitTicks) (hq : QuietFor (after 1 s) (r.dwell * s.cfg.unitTicks)) :
    ∃ u, runTicks j (after 1 (outResult r s)) = .next u ∧ u.ph ≠ .next := by
  obtain hlt | rfl := Nat.lt_or_eq_of_le hj
  · have hd : r.dwell ≠ 0 := by
      intro hd
      simp [hd] at hlt
    have hp : (outResult r s).ph = .dwell := (outResult_ph_eq_dwell r s).2 hd
    have hdwell : Dwelling (after 1 (outResult r s)) := ⟨hv, rowAt_lt hrow, hp, Nat.one_le_iff_ne_zero.2 hd⟩
    obtain ⟨cnt, ucnt, hrun⟩ := runTicks_dwelling_before hdwell (hlt.trans_eq (outResult_waits hv hd).1.symm)
      (quietFor_mono hq hj)
    exact ⟨_, hrun, by simp [hp]⟩
  · exact ⟨_, runTicks_outResult hv hrow hq, nofun⟩

theorem runTicks_before_sampled {s : State} {r : Row} {j : Nat} (hv : Valid s.cfg) (hrow : rowAt s.cfg s.cur = .ok r)
    (hp : s.ph = .out) (hj : j < r.dwell * s.cfg.unitTicks + 2) (hq : QuietFor s (r.dwell * s.cfg.unitTicks + 2)) :
    ∃ u, runTicks j s = .next u ∧ u.ph ≠ .next := by
  cases j with
  | zero => exact ⟨s, runTicks_zero s, by simp [hp]⟩
  | succ j =>
    rw [runTicks_succ j (step_of_stepTo hv (.out (quietFor_now hq) hp hrow))]
    exact runTicks_outResult_before hv hrow (by omega) (quietFor_next (quietFor_mono hq (Nat.le_succ _)) rfl rfl)

/-- Settles O43: after NEXT's step, the sample of the state it leads to, at most the longest dwell away. -/
theorem samplingInstantsAreNoFurtherApartThanTheLongestGap :
    Obligations.SamplingInstantsAreNoFurtherApartThanTheLongestGap := by
  intro s hv h hp hq
  obtain ⟨target, htarget⟩ := exists_stepLookup hv h.cur h.inp
  have hpos : 1 ≤ longestGap s.cfg := Nat.le_add_left 1 (_ + 2)
  have hstep := step_next hv h.cur hp (hq 0 hpos) htarget
  obtain ⟨r, hrow⟩ : ∃ r, rowAt s.cfg target = .ok r :=
    valid_row hv (everyStepKeepsRegistersInRange s _ h hstep).cur
  have hgap : r.dwell * s.cfg.unitTicks + 3 ≤ longestGap s.cfg := iteration_le_longestGap hrow
  have hq' : QuietFor (after 1 (nextResult target s)) (r.dwell * s.cfg.unitTicks + 2) :=
    quietFor_next (quietFor_mono hq hgap) rfl rfl
  refine ⟨r.dwell * s.cfg.unitTicks + 3, State.setPh .next (sampled r (after 1 (nextResult target s))),
    Nat.le_add_left 3 _, hgap, ?_, rfl, ?_, ?_⟩
  · rw [runTicks_succ _ hstep]
    exact runTicks_sampled hv hrow rfl hq'
  · have hedge : s.edges + 1 + r.dwell * s.cfg.unitTicks + 2 = s.edges + (r.dwell * s.cfg.unitTicks + 3) := by omega
    rw [setPh_inp, sampled_inp, ← hedge]
    rfl
  · intro j hj h1
    obtain ⟨i, rfl⟩ := Nat.exists_eq_add_of_le' h1
    rw [runTicks_succ i hstep]
    exact runTicks_before_sampled hv hrow rfl (Nat.lt_of_succ_lt_succ hj) hq'

end Sys2Proof.Proofs
end

section
/-! The history and the building of a configuration (70_reset_and_hazards.md R144, R146, R149). -/

namespace Sys2Proof.Proofs

open Sys2Proof.Machine Sys2Proof.Laws

/-! ### The history -/

/-- An event that the table accounts for: an OutWrite of a row, a Transition of an entry, any Sample. -/
def FromTable (c : Config) : Event → Prop
  | .outWrite _ po som => ∃ st r, st < c.nstates ∧ rowAt c st = .ok r ∧ po = r.po ∧ som = r.so &&& c.smask
  | .sample _ _ _ => True
  | .transition _ src dst => ∃ code, code < c.ncodes ∧ stepLookup c src code = .ok dst

theorem history_fromTable_iff (s : State) :
    (∀ e ∈ s.history, FromTable s.cfg e) ↔ WritesAreRows s ∧ MovesAreTable s := by
  constructor
  · exact fun h => ⟨fun _ _ _ he => h _ he, fun _ _ _ he => h _ he⟩
  · rintro ⟨hwrites, hmoves⟩ (⟨t, po, som⟩ | _ | ⟨t, src, dst⟩) he
    · exact hwrites t po som he
    · trivial
    · exact hmoves t src dst he

/-- A step appends only what the table accounts for. -/
theorem stepTo_history {s t : State} (h : StepTo s t) :
    ∃ new, t.history = s.history ++ new ∧ ∀ e ∈ new, FromTable s.cfg e := by
  cases h with
  | reset => exact ⟨[], (List.append_nil _).symm, nofun⟩
  | out _ _ hrow => exact ⟨[_], rfl, List.forall_mem_singleton.2 ⟨s.cur, _, rowAt_lt hrow, hrow, rfl, rfl⟩⟩
  | dwell => exact ⟨[], by simp, nofun⟩
  | sample => exact ⟨[_], rfl, List.forall_mem_singleton.2 trivial⟩
  | next _ _ hrow htarget =>
    obtain ⟨hcode, -, -⟩ := targetOf_lt (rowAt_wf hrow) htarget
    exact ⟨[_], rfl, List.forall_mem_singleton.2 ⟨s.inp, hcode, (stepLookup_of_row hrow _).trans htarget⟩⟩

/-- Settles O54: the history grows by events of the table, and the table stays. -/
theorem historyTellsOnlyOfTheTable : Obligations.HistoryTellsOnlyOfTheTable := by
  intro s t hwrites hmoves hstep
  have hto := stepTo_of_step hstep
  obtain ⟨new, hnew, htable⟩ := stepTo_history hto
  rw [← history_fromTable_iff, stepTo_cfg hto, hnew]
  exact List.forall_mem_append.2 ⟨(history_fromTable_iff s).2 ⟨hwrites, hmoves⟩, htable⟩

/-! ### Building a configuration -/

theorem tableFailure_none {c : Config} : ∀ {s : Nat} {rows : List Row}, tableFailure c s rows = none →
    ∀ r ∈ rows, r.WF c
  | _, [], _ => nofun
  | s, r :: rows, h => by
    unfold tableFailure at h
    split at h
    · cases h
    · exact List.forall_mem_cons.2 ⟨by assumption, tableFailure_none h⟩

/-- What a build that succeeds says: NSTATES is the number of rows, each is well formed, and the ROM is their encodings. -/
theorem buildConfig_ok {c built : Config} {rows : List Row} (h : buildConfig c rows = .ok built) :
    Valid built ∧ built.nstates = rows.length ∧ built.rom = romFrom 0 (rows.map (encodeRow built)) ∧
    ∀ r ∈ rows, r.WF built := by
  unfold buildConfig at h
  simp only at h
  split at h
  · cases h
  · rename_i hrows
    obtain ⟨rfl, hv⟩ := accept_ok h
    exact ⟨hv, rfl, rfl, fun r hr => tableFailure_none hrows r hr⟩

/-- Settles O31: each row is read back from its encoding. -/
theorem builtConfigurationHoldsItsRows : Obligations.BuiltConfigurationHoldsItsRows := by
  intro c built rows h
  obtain ⟨hv, hn, hrom, hwf⟩ := buildConfig_ok h
  refine ⟨hv, hn, hrom ▸ romFrom_wf _ _, fun st r hget => ?_⟩
  have hrwf : r.WF built := hwf r (List.mem_of_getElem? hget)
  have hread : Memory.read built.rom st = some (encodeRow built r) := by
    have hentry := read_romFrom 0 (rows.map (encodeRow built)) st
    rwa [← hrom, Nat.zero_add, List.getElem?_map, hget] at hentry
  have hst : st < built.nstates := hn ▸ (List.getElem?_eq_some_iff.1 hget).1
  exact ⟨hrwf, (rowAt_ok_iff _ _ _).2 ⟨hst, _, hread, decodeRow_encodeRow built r hrwf⟩⟩

end Sys2Proof.Proofs
end

section
/-! The words that 95_test_vectors.md section 2.1 writes out: the well-formed ones are encodings, the others break one
rule of 30_encoding.md R68 each. -/

namespace Sys2Proof.Proofs

open Sys2Proof.Machine Sys2Proof.Laws

/-! ### The refusals of a row word -/

/-- A word of the row's width whose padding above `po` is not zero is refused for that. -/
theorem decode_row_padding_po {c : Config} {w : Nat} (hw : w < 2 ^ c.rowW) (hpo : 2 ^ c.pw ≤ bitsAt w 0 (c4 c.pw)) :
    decode c .row w = .error (.padding .po) := by
  have hrow : decodeRow c w = .error (.padding .po) := by rw [decodeRow, if_neg hw.not_ge, if_pos hpo]
  rw [decode, hrow, Except.map]

/-- A word whose every field fits its width is refused where a next entry names no row (WF1). -/
theorem decode_row_targetRange {c : Config} {w : Nat} (hw : w < 2 ^ c.rowW) (hpo : bitsAt w 0 (c4 c.pw) < 2 ^ c.pw)
    (hso : bitsAt w c.soLo (c4 c.sportW) < 2 ^ c.sportW) (hdwell : bitsAt w c.dwellLo (c4 c.dwellW) < 2 ^ c.dwellW)
    (hnext : ∀ t ∈ nextEntries c w, t < 2 ^ c.sw) (htarget : ∃ t ∈ nextEntries c w, c.nstates ≤ t) :
    decode c .row w = .error .targetRange := by
  have hdangling : ¬ ∀ t ∈ nextEntries c w, t < c.nstates := by simpa using htarget
  have hrow : decodeRow c w = .error .targetRange := by
    rw [decodeRow, if_neg hw.not_ge, if_neg hpo.not_ge, if_neg hso.not_ge, if_neg hdwell.not_ge,
      if_neg (not_not_intro hnext), if_pos hdangling]
  rw [decode, hrow, Except.map]

/-- Settles O1: E1 and E4, the phase codes and the timer commands are encodings (`decode_ok_iff`); E5 has a bit set above
`po`, and E6 a next entry 9 where NSTATES is 9. -/
theorem writtenWordsDecode : Obligations.WrittenWordsDecode := by
  refine ⟨?e1, ?e4, ?e5, ?e6, decode_phase_code _ .out, decode_phase_code _ .dwell, decode_phase_code _ .sample,
    decode_phase_code _ .next, ?tmrStart, ?tmrTick⟩
  case e1 | e4 | tmrStart | tmrTick => exact decode_ok_iff.2 (by decide)
  case e5 => exact decode_row_padding_po (by decide) (by decide)
  case e6 => exact decode_row_targetRange (by decide) (by decide) (by decide) (by decide) (by decide) (by decide)

end Sys2Proof.Proofs
end
